-- ==== Sys2Proof/Word.lean ====
section
/-! DEFINITION. The widths of the machine: the 8-bit byte, the 16-bit word, and the 12- and 4-bit
literals of an instruction word (00_scope.md R5, R7). -/

namespace Sys2Proof

/-- An 8-bit unsigned value: a general register, a timer, a memory byte (R5, R21, R50). -/
abbrev Byte := BitVec 8

/-- A 16-bit unsigned value: `I`, `pc`, a stack slot, `INFO`, an instruction word (R5, R24, R25, R27). -/
abbrev Word := BitVec 16

/-- A 4-bit field of an instruction word (R7, GLOSSARY "Nibble"). -/
abbrev Nibble := BitVec 4

/-- A 12-bit literal `nnn` of an instruction word (R72, R74). -/
abbrev Lit12 := BitVec 12

/-- The number of a general register, V0 to VF: all 16 values are legal (R21, R74). -/
abbrev Reg := Fin 16

/-- VF, register 15, the flag register (R5, R22). -/
def vf : Reg := 15

end Sys2Proof
end

