-- ==== Sys2Proof/Syntax.lean ====
section
/-! DEFINITION. The 35 instructions, one constructor per row of spec/opcode_table.json (30_encoding.md
R75), in the table's order; and the six encoding formats (R73). -/

namespace Sys2Proof

/-- The instruction set. `x` and `y` are register numbers, `kk` a literal byte, `nnn` a 12-bit literal,
`n` a row count (R72, R74). -/
inductive Instr where
  /-- `HALT` 0000: stop the machine (R94). -/
  | halt
  /-- `CLS` 00E0: clear the screen (R141). -/
  | cls
  /-- `RET` 00EE: return from subroutine (R123). -/
  | ret
  /-- `JP nnn` 1nnn (R121). -/
  | jp (nnn : Lit12)
  /-- `CALL nnn` 2nnn (R122). -/
  | call (nnn : Lit12)
  /-- `SE Vx,kk` 3xkk: skip if equal to the literal (R124). -/
  | seImm (x : Reg) (kk : Byte)
  /-- `SNE Vx,kk` 4xkk: skip if not equal to the literal (R125). -/
  | sneImm (x : Reg) (kk : Byte)
  /-- `SE Vx,Vy` 5xy0: skip if the registers are equal (R126). -/
  | seReg (x y : Reg)
  /-- `LD Vx,kk` 6xkk: literal assign (R101). -/
  | ldImm (x : Reg) (kk : Byte)
  /-- `ADD Vx,kk` 7xkk: literal add, no flag (R102). -/
  | addImm (x : Reg) (kk : Byte)
  /-- `LD Vx,Vy` 8xy0: move (R103). -/
  | ldReg (x y : Reg)
  /-- `OR Vx,Vy` 8xy1 (R104). -/
  | orReg (x y : Reg)
  /-- `AND Vx,Vy` 8xy2 (R105). -/
  | andReg (x y : Reg)
  /-- `XOR Vx,Vy` 8xy3 (R106). -/
  | xorReg (x y : Reg)
  /-- `ADD Vx,Vy` 8xy4: add with carry out (R107). -/
  | addReg (x y : Reg)
  /-- `SUB Vx,Vy` 8xy5: Vx minus Vy with not-borrow out (R108). -/
  | subReg (x y : Reg)
  /-- `SHR Vx,Vy` 8xy6: Vy shifted right by one (R109). -/
  | shrReg (x y : Reg)
  /-- `SUBN Vx,Vy` 8xy7: Vy minus Vx with not-borrow out (R110). -/
  | subnReg (x y : Reg)
  /-- `SHL Vx,Vy` 8xyE: Vy shifted left by one (R111). -/
  | shlReg (x y : Reg)
  /-- `SNE Vx,Vy` 9xy0: skip if the registers differ (R127). -/
  | sneReg (x y : Reg)
  /-- `LD I,nnn` Annn (R171). -/
  | ldI (nnn : Lit12)
  /-- `JP V0,nnn` Bnnn: jump to nnn plus V0 (R128). -/
  | jpV0 (nnn : Lit12)
  /-- `RND Vx,kk` Cxkk: random byte and mask (R112). -/
  | rnd (x : Reg) (kk : Byte)
  /-- `DRW Vx,Vy,n` Dxyn: draw an n-row sprite (R142). -/
  | drw (x y : Reg) (n : Nibble)
  /-- `SKP Vx` Ex9E: skip if the key is down (R164). -/
  | skp (x : Reg)
  /-- `SKNP Vx` ExA1: skip if the key is not down (R165). -/
  | sknp (x : Reg)
  /-- `LD Vx,DT` Fx07: read the delay timer (R161). -/
  | ldVxDt (x : Reg)
  /-- `LD Vx,K` Fx0A: wait for a key (R166). -/
  | ldVxK (x : Reg)
  /-- `LD DT,Vx` Fx15: set the delay timer (R162). -/
  | ldDtVx (x : Reg)
  /-- `LD ST,Vx` Fx18: set the sound timer (R163). -/
  | ldStVx (x : Reg)
  /-- `ADD I,Vx` Fx1E (R172). -/
  | addIVx (x : Reg)
  /-- `LD F,Vx` Fx29: font address of a digit (R167). -/
  | ldFVx (x : Reg)
  /-- `LD B,Vx` Fx33: store three decimal digits (R168). -/
  | ldBVx (x : Reg)
  /-- `LD [I],Vx` Fx55: store V0 to Vx (R169). -/
  | ldMemVx (x : Reg)
  /-- `LD Vx,[I]` Fx65: load V0 to Vx (R170). -/
  | ldVxMem (x : Reg)
  deriving DecidableEq, Repr

/-- The six encoding formats of 30_encoding.md R73. -/
inductive Format where
  | z | a | xk | xy | xyn | x
  deriving DecidableEq, Repr

/-- The format of each instruction (R73, R75 column "format"). -/
def Instr.format : Instr → Format
  | .halt => .z
  | .cls => .z
  | .ret => .z
  | .jp _ => .a
  | .call _ => .a
  | .seImm _ _ => .xk
  | .sneImm _ _ => .xk
  | .seReg _ _ => .xy
  | .ldImm _ _ => .xk
  | .addImm _ _ => .xk
  | .ldReg _ _ => .xy
  | .orReg _ _ => .xy
  | .andReg _ _ => .xy
  | .xorReg _ _ => .xy
  | .addReg _ _ => .xy
  | .subReg _ _ => .xy
  | .shrReg _ _ => .xy
  | .subnReg _ _ => .xy
  | .shlReg _ _ => .xy
  | .sneReg _ _ => .xy
  | .ldI _ => .a
  | .jpV0 _ => .a
  | .rnd _ _ => .xk
  | .drw _ _ _ => .xyn
  | .skp _ => .x
  | .sknp _ => .x
  | .ldVxDt _ => .x
  | .ldVxK _ => .x
  | .ldDtVx _ => .x
  | .ldStVx _ => .x
  | .addIVx _ => .x
  | .ldFVx _ => .x
  | .ldBVx _ => .x
  | .ldMemVx _ => .x
  | .ldVxMem _ => .x

end Sys2Proof
end

