-- ==== Sys2Proof/Decode.lean ====
section
/-! DEFINITION. Instruction words: their fields (30_encoding.md R72), the two-level decoder (R75 to R77,
40_decode_dispatch.md R92, R93), and the encoder (R83). The decoder reads nothing but the word. -/

namespace Sys2Proof

/-! ### Fields of a word (R72) -/

/-- `W[15:12]`, the primary group `op`. -/
def fieldOp (w : Word) : Nibble := w.extractLsb' 12 4

/-- `W[11:8]` as a register number, the field `x`. -/
def fieldX (w : Word) : Reg := (w.extractLsb' 8 4).toFin

/-- `W[7:4]` as a register number, the field `y`. -/
def fieldY (w : Word) : Reg := (w.extractLsb' 4 4).toFin

/-- `W[3:0]`, the field `n`. -/
def fieldN (w : Word) : Nibble := w.extractLsb' 0 4

/-- `W[7:0]`, the field `kk`. -/
def fieldKK (w : Word) : Byte := w.extractLsb' 0 8

/-- `W[11:0]`, the field `nnn`. -/
def fieldNNN (w : Word) : Lit12 := w.extractLsb' 0 12

/-- The four bits that name a register. -/
def regBits (x : Reg) : Nibble := BitVec.ofFin x

/-! ### Decoding -/

/-- Why the decoder refuses. -/
inductive DecodeReject where
  /-- The word matches no row of R75: executing it raises `DECODE_ERROR(w)` (R77, R95). -/
  | unrecognised (w : Word)
  /-- Fewer than two bytes were given; fetch always gives two, so the machine never meets this one. -/
  | truncated
  deriving DecidableEq, Repr

/-- Group 0, selected by all of `nnn` (R76): `HALT`, `CLS`, `RET`. -/
def decodeGroup0 (w : Word) : Except DecodeReject Instr :=
  match fieldNNN w with
  | 0x000#12 => .ok .halt
  | 0x0E0#12 => .ok .cls
  | 0x0EE#12 => .ok .ret
  | _ => .error (.unrecognised w)

/-- Group 8, selected by `n` (R76). -/
def decodeGroup8 (w : Word) : Except DecodeReject Instr :=
  match fieldN w with
  | 0x0#4 => .ok (.ldReg (fieldX w) (fieldY w))
  | 0x1#4 => .ok (.orReg (fieldX w) (fieldY w))
  | 0x2#4 => .ok (.andReg (fieldX w) (fieldY w))
  | 0x3#4 => .ok (.xorReg (fieldX w) (fieldY w))
  | 0x4#4 => .ok (.addReg (fieldX w) (fieldY w))
  | 0x5#4 => .ok (.subReg (fieldX w) (fieldY w))
  | 0x6#4 => .ok (.shrReg (fieldX w) (fieldY w))
  | 0x7#4 => .ok (.subnReg (fieldX w) (fieldY w))
  | 0xE#4 => .ok (.shlReg (fieldX w) (fieldY w))
  | _ => .error (.unrecognised w)

/-- Group E, selected by `kk` (R76). -/
def decodeGroupE (w : Word) : Except DecodeReject Instr :=
  match fieldKK w with
  | 0x9E#8 => .ok (.skp (fieldX w))
  | 0xA1#8 => .ok (.sknp (fieldX w))
  | _ => .error (.unrecognised w)

/-- Group F, selected by `kk` (R76). -/
def decodeGroupF (w : Word) : Except DecodeReject Instr :=
  match fieldKK w with
  | 0x07#8 => .ok (.ldVxDt (fieldX w))
  | 0x0A#8 => .ok (.ldVxK (fieldX w))
  | 0x15#8 => .ok (.ldDtVx (fieldX w))
  | 0x18#8 => .ok (.ldStVx (fieldX w))
  | 0x1E#8 => .ok (.addIVx (fieldX w))
  | 0x29#8 => .ok (.ldFVx (fieldX w))
  | 0x33#8 => .ok (.ldBVx (fieldX w))
  | 0x55#8 => .ok (.ldMemVx (fieldX w))
  | 0x65#8 => .ok (.ldVxMem (fieldX w))
  | _ => .error (.unrecognised w)

/-- Groups 5 and 9, whose low nibble must be 0 (R77). -/
def requireLowNibble0 (w : Word) (i : Instr) : Except DecodeReject Instr :=
  if fieldN w = 0 then .ok i else .error (.unrecognised w)

/-- The decoder on one word: the primary table on `op`, then the secondary tables (R76, R92). The four
bits of `op` are exhausted by the arms, so the last one is group F. -/
def decodeWord (w : Word) : Except DecodeReject Instr :=
  match fieldOp w with
  | 0x0#4 => decodeGroup0 w
  | 0x1#4 => .ok (.jp (fieldNNN w))
  | 0x2#4 => .ok (.call (fieldNNN w))
  | 0x3#4 => .ok (.seImm (fieldX w) (fieldKK w))
  | 0x4#4 => .ok (.sneImm (fieldX w) (fieldKK w))
  | 0x5#4 => requireLowNibble0 w (.seReg (fieldX w) (fieldY w))
  | 0x6#4 => .ok (.ldImm (fieldX w) (fieldKK w))
  | 0x7#4 => .ok (.addImm (fieldX w) (fieldKK w))
  | 0x8#4 => decodeGroup8 w
  | 0x9#4 => requireLowNibble0 w (.sneReg (fieldX w) (fieldY w))
  | 0xA#4 => .ok (.ldI (fieldNNN w))
  | 0xB#4 => .ok (.jpV0 (fieldNNN w))
  | 0xC#4 => .ok (.rnd (fieldX w) (fieldKK w))
  | 0xD#4 => .ok (.drw (fieldX w) (fieldY w) (fieldN w))
  | 0xE#4 => decodeGroupE w
  | _ => decodeGroupF w

/-- The word made of two bytes in memory: the byte at the lower address is the high byte (R54). -/
def wordOfBytes (hi lo : Byte) : Word := hi ++ lo

/-- The decoder on bytes as they stand in memory: one instruction is two bytes (R71); the rest is returned. -/
def decodeBytes : List Byte → Except DecodeReject (Instr × List Byte)
  | hi :: lo :: rest => (decodeWord (wordOfBytes hi lo)).map (fun i => (i, rest))
  | _ => .error .truncated

/-! ### Encoding (R73, R75, R83) -/

/-- Format A: `op` and a 12-bit literal. -/
def wordA (op : Nibble) (nnn : Lit12) : Word := op ++ nnn

/-- Formats XK and X: `op`, a register, a byte. -/
def wordXK (op : Nibble) (x : Reg) (kk : Byte) : Word := op ++ (regBits x ++ kk)

/-- Formats XY and XYN: `op`, two registers, a nibble. -/
def wordXYN (op : Nibble) (x y : Reg) (n : Nibble) : Word := op ++ (regBits x ++ (regBits y ++ n))

/-- The word of an instruction: the pattern of R75 with its operands in place. -/
def encode : Instr → Word
  | .halt => 0x0000
  | .cls => 0x00E0
  | .ret => 0x00EE
  | .jp nnn => wordA 0x1 nnn
  | .call nnn => wordA 0x2 nnn
  | .seImm x kk => wordXK 0x3 x kk
  | .sneImm x kk => wordXK 0x4 x kk
  | .seReg x y => wordXYN 0x5 x y 0x0
  | .ldImm x kk => wordXK 0x6 x kk
  | .addImm x kk => wordXK 0x7 x kk
  | .ldReg x y => wordXYN 0x8 x y 0x0
  | .orReg x y => wordXYN 0x8 x y 0x1
  | .andReg x y => wordXYN 0x8 x y 0x2
  | .xorReg x y => wordXYN 0x8 x y 0x3
  | .addReg x y => wordXYN 0x8 x y 0x4
  | .subReg x y => wordXYN 0x8 x y 0x5
  | .shrReg x y => wordXYN 0x8 x y 0x6
  | .subnReg x y => wordXYN 0x8 x y 0x7
  | .shlReg x y => wordXYN 0x8 x y 0xE
  | .sneReg x y => wordXYN 0x9 x y 0x0
  | .ldI nnn => wordA 0xA nnn
  | .jpV0 nnn => wordA 0xB nnn
  | .rnd x kk => wordXK 0xC x kk
  | .drw x y n => wordXYN 0xD x y n
  | .skp x => wordXK 0xE x 0x9E
  | .sknp x => wordXK 0xE x 0xA1
  | .ldVxDt x => wordXK 0xF x 0x07
  | .ldVxK x => wordXK 0xF x 0x0A
  | .ldDtVx x => wordXK 0xF x 0x15
  | .ldStVx x => wordXK 0xF x 0x18
  | .addIVx x => wordXK 0xF x 0x1E
  | .ldFVx x => wordXK 0xF x 0x29
  | .ldBVx x => wordXK 0xF x 0x33
  | .ldMemVx x => wordXK 0xF x 0x55
  | .ldVxMem x => wordXK 0xF x 0x65

/-- The high byte of a word, stored first (R54, R83). -/
def hiByte (w : Word) : Byte := w.extractLsb' 8 8

/-- The low byte of a word. -/
def loByte (w : Word) : Byte := w.extractLsb' 0 8

/-- The bytes of a word in memory order, high byte first (R54, R83). -/
def bytesOfWord (w : Word) : List Byte := [hiByte w, loByte w]

/-- The two bytes of an instruction, as an image holds them (R83). -/
def encodeBytes (i : Instr) : List Byte := bytesOfWord (encode i)

/-! ### The host's view of the table -/

/-- The word of an opcode-table row: every row has 16 bits (R71), bit 0 the least significant. -/
def tableWord (nbits w : Nat) : Word := BitVec.ofNat 16 (w % 2 ^ nbits)

/-- The instruction the decoder reads from a table row's word, laid out in memory order first. -/
def decodeTableWord (nbits w : Nat) : Option Instr :=
  match decodeBytes (bytesOfWord (tableWord nbits w)) with
  | .ok (i, _) => some i
  | .error _ => none

end Sys2Proof
end

