-- ==== Sys2Proof/Config.lean ====
section
/-! DEFINITION. What is fixed for a machine and not state: the constants of 00_scope.md R5, the open
parameters `FONT` and `VF_DEST_ORDER` of R6, and the free step inputs of R6 as constants without a body. -/

namespace Sys2Proof

/-- Which of the two writes to VF lands last when `ADD Vx,Vy`, `SUB` or `SUBN` has x = 15
(parameter `VF_DEST_ORDER`, 00_scope.md R6, 41_arithmetic_register.md R100). -/
inductive VfDestOrder where
  /-- The flag is written last and survives. -/
  | flagLast
  /-- The result is written last and survives. -/
  | destLast
  deriving DecidableEq, Repr, Inhabited

/-- `VF_DEST_ORDER` of this machine. The spec leaves it OPEN (R6, 92_eei_decisions.md D22): no body, so
every claim holds for both orders (notes/assumptions/5.md). -/
opaque Config.vfDestOrder : VfDestOrder

/-- The key latch as the host leaves it before the cycle numbered n: a free step input (R6, R30, D25;
notes/assumptions/1.md). -/
opaque Config.freeKeys : Nat → Word

/-- Whether the 60 Hz interval has elapsed at the tick phase of the cycle numbered n: a free step input
(R6, 60_exceptions.md R203, D23; notes/assumptions/1.md). -/
opaque Config.freeTick : Nat → Bool

/-- The random byte of the cycle numbered n: a free step input (R6, R112, R208, D24;
notes/assumptions/1.md). -/
opaque Config.freeRnd : Nat → Byte

/-- Memory holds 4096 bytes, addresses 0x000 to 0xFFF (R5, R31, R50). -/
def Config.memSize : Nat := 4096

/-- The program origin 0x200: the reset value of `I` and `pc` and the place of the image (R5, R36, R222). -/
def Config.programOrigin : Word := 0x200

/-- The longest image that fits from the program origin up: 4096 - 0x200 bytes (R222). -/
def Config.maxImage : Nat := 3584

/-- The font table holds 80 bytes from address 0x000 (R5, R52). -/
abbrev Config.fontSize : Nat := 80

/-- `FONT` of this machine (R6, R52). The spec leaves it OPEN (D27, U13): no body, so a claim about `State.reset` holds
for every font; `State.launch` takes a font as its argument (notes/assumptions/4.md). -/
opaque Config.font : Vector Byte Config.fontSize

/-- The default `FONT` that 20_memory.md R52 proposes, 16 glyphs of 5 bytes. UNVERIFIED: the spec marks it as general
knowledge of the family (D27, G8; notes/assumptions/4.md). No definition of the model uses it: a claim that rests on it
names it, as the font of a launch. -/
def Config.defaultFont : Vector Byte Config.fontSize :=
  #v[0xF0, 0x90, 0x90, 0x90, 0xF0,  0x20, 0x60, 0x20, 0x20, 0x70,
     0xF0, 0x10, 0xF0, 0x80, 0xF0,  0xF0, 0x10, 0xF0, 0x10, 0xF0,
     0x90, 0x90, 0xF0, 0x10, 0x10,  0xF0, 0x80, 0xF0, 0x10, 0xF0,
     0xF0, 0x80, 0xF0, 0x90, 0xF0,  0xF0, 0x10, 0x20, 0x40, 0x40,
     0xF0, 0x90, 0xF0, 0x90, 0xF0,  0xF0, 0x90, 0xF0, 0x10, 0xF0,
     0xF0, 0x90, 0xF0, 0x90, 0x90,  0xE0, 0x90, 0xE0, 0x90, 0xE0,
     0xF0, 0x80, 0x80, 0x80, 0xF0,  0xE0, 0x90, 0x90, 0x90, 0xE0,
     0xF0, 0x80, 0xF0, 0x80, 0xF0,  0xF0, 0x80, 0xF0, 0x80, 0x80]

end Sys2Proof
end

