-- ==== Sys2Proof/Machine/State.lean ====
section
/-! DEFINITION. The state of the machine as 10_state.md R20 lists it, the reasons a step could stop, and the state
after reset (R36). Plain data throughout. -/

namespace Sys2Proof.Machine

/-- The code in `CAUSE`: why the machine stopped (10_state.md R32, 60_exceptions.md R190). The code 7 "never
occurs", so it has no name here (notes/assumptions/10.md). -/
inductive Cause where
  /-- 0: no condition; the value while `RUN` = 1. -/
  | none
  /-- 1: the fetched word is 0x0000. -/
  | halt
  /-- 2: the fetched word matches no row of R75. -/
  | decodeError
  /-- 3: `CALL` with 16 live frames, `RET` with none. -/
  | stackFault
  /-- 4: a fetch with `pc` odd or above 0xFFE. -/
  | fetchFault
  /-- 5: a data access whose range passes 0xFFF. -/
  | memFault
  /-- 6: a key number or digit above 15. -/
  | operandFault
  deriving DecidableEq, Repr

/-- The three bits of the latch `CAUSE` for each cause (R32, R190). -/
def Cause.code : Cause → BitVec 3
  | .none => 0
  | .halt => 1
  | .decodeError => 2
  | .stackFault => 3
  | .fetchFault => 4
  | .memFault => 5
  | .operandFault => 6

/-- The 4096 bytes of `MEM` (R31, R50). `cells` lists, in strictly rising address order, exactly the bytes that
differ from what they were at reset: `font` (the configuration parameter `FONT`, R6, R52) at 0x000 to 0x04F and zero
elsewhere. `font` is no register and no ROM: nothing reaches it but a read of a byte never changed (R35), and no
operation changes it (notes/assumptions/4.md, 20.md). -/
structure Memory where
  font : Vector Byte Config.fontSize
  cells : List Host.Cell
  deriving DecidableEq, Repr

/-- The frame buffer: 32 rows (Y) of 64 pixels (X), true is on (R29). -/
abbrev FrameBuffer := Vector (Vector Bool 64) 32

/-- The state of the machine (R20). The last three fields are not the spec's: they hold the step inputs `tick` and
`rnd` of 00_scope.md R6 for the cycle about to run, and count the cycles that have drawn inputs. -/
structure State where
  /-- `V[0..15]` (R21). -/
  v : Vector Byte 16
  /-- The address register `I` (R24). -/
  i : Word
  /-- The program counter (R25). -/
  pc : Word
  /-- `SP`, the number of live frames, 0 to 16 (R27). -/
  sp : Fin 17
  /-- `STACK[1..16]`: slot k stands at index k - 1 (R27, D12; notes/assumptions/9.md). -/
  stack : Vector Word 16
  /-- The delay timer `DT` (R28). -/
  dt : Byte
  /-- The sound timer `ST` (R28). -/
  st : Byte
  /-- `FB[r][c]` (R29). -/
  fb : FrameBuffer
  /-- The input latch `KEYS`: bit k is set while key k is down (R30). Written by the host only. -/
  keys : Word
  /-- `MEM` (R31). -/
  mem : Memory
  /-- The latch `RUN`: true while the machine runs (R32). -/
  run : Bool
  /-- The latch `CAUSE` (R32). -/
  cause : Cause
  /-- The latch `INFO` (R32). -/
  info : Word
  /-- MODEL: the step input `tick` of the cycle about to run (R6, R203). -/
  tick : Bool
  /-- MODEL: the step input `rnd` of the cycle about to run (R6, R208). -/
  rnd : Byte
  /-- MODEL: how many times the inputs of a coming cycle have been drawn from the free streams of Config. -/
  draws : Nat
  deriving DecidableEq, Repr

/-- Reasons for a step to have no next state. There are none on this machine: "A cycle either completes, giving the
next state, or raises exactly one fatal condition" (00_scope.md R10), and a fatal condition is itself a next state, with
`RUN`, `CAUSE` and `INFO` written (60_exceptions.md R197). Nothing raises this type (notes/assumptions/7.md: safe). -/
inductive Fault where
  deriving DecidableEq, Repr

/-- Reasons for which the model gives no meaning. -/
inductive Refusal where
  /-- Raised by `exec` alone, for an instruction without a meaning yet: none is left, so nothing raises it. Safe. -/
  | notModelled (mnemonic : String)
  /-- Raised by `State.launch` for an image of more than 3584 bytes, to which the spec gives no meaning (R222, D28).
  Safe: no step raises it. -/
  | imageTooLong (length : Nat)
  deriving DecidableEq, Repr

/-- The machine right after a reset with a font, before any program is loaded (R36, R220, R221). The stack slots, to
which the spec gives no value, are zero (notes/assumptions/6.md), and the first cycle's `tick` and `rnd` are the first
of the free draws (R6; notes/assumptions/2.md). -/
def State.resetWith (font : Vector Byte Config.fontSize) : State where
  v := Vector.replicate 16 0
  i := Config.programOrigin
  pc := Config.programOrigin
  sp := 0
  stack := Vector.replicate 16 0
  dt := 0
  st := 0
  fb := Vector.replicate 32 (Vector.replicate 64 false)
  keys := 0
  mem := { font := font, cells := [] }
  run := true
  cause := .none
  info := 0
  tick := Config.freeTick 0
  rnd := Config.freeRnd 0
  draws := 1

/-- The machine right after reset, before any program is loaded, with its own `FONT`, whatever that is (R6, R36;
notes/assumptions/4.md). -/
def State.reset : State := State.resetWith Config.font

end Sys2Proof.Machine
end

