-- ==== Sys2Proof/Machine/Ops.lean ====
section
/-! DEFINITION. The shared operations over memory, registers, the program counter, the stack and the step inputs;
raising a fatal condition; fetching an instruction word; the timer-tick phase. -/

namespace Sys2Proof.Machine

/-! ### Memory (20_memory.md R50 to R60) -/

/-- What a byte reads as at reset: `FONT` at 0x000 to 0x04F, zero elsewhere (R36, R51). -/
def Memory.background (m : Memory) (a : Nat) : Byte :=
  if h : a < Config.fontSize then m.font[a] else 0

/-- The listed byte at an address, if there is one. -/
def cellAt : List Host.Cell → Nat → Option Byte
  | [], _ => none
  | (b, w) :: rest, a => if a = b then some w else cellAt rest a

/-- List a byte at its place in rising address order, in place of one listed there before. -/
def putCell (a : Nat) (v : Byte) : List Host.Cell → List Host.Cell
  | [] => [(a, v)]
  | (b, w) :: rest =>
    if a < b then (a, v) :: (b, w) :: rest
    else if a = b then (a, v) :: rest
    else (b, w) :: putCell a v rest

/-- Take every listing of an address out. -/
def dropCell (a : Nat) (cells : List Host.Cell) : List Host.Cell :=
  cells.filter (fun c => c.1 != a)

/-- `MemRead(a, 1)` (R58): no side effect. Callers have checked that a <= 0xFFF (R57). -/
def Memory.read (m : Memory) (a : Nat) : Byte :=
  (cellAt m.cells a).getD (m.background a)

/-- `MemWrite(a, 1, v)` (R58): changes exactly one byte. Callers have checked that a <= 0xFFF (R57); above it there is
no byte to change (notes/assumptions/14.md). Writing what an unlisted address reads as takes the listing out. -/
def Memory.write (m : Memory) (a : Nat) (v : Byte) : Memory :=
  if a < Config.memSize then
    { m with cells := if v = m.background a then dropCell a m.cells else putCell a v m.cells }
  else m

/-- Reads of n bytes in ascending address order (R56). -/
def Memory.readBytes (m : Memory) (a : Nat) : Nat → List Byte
  | 0 => []
  | n + 1 => m.read a :: m.readBytes (a + 1) n

/-- Writes of bytes in ascending address order (R56, R60). -/
def Memory.writeBytes (m : Memory) (a : Nat) : List Byte → Memory
  | [] => m
  | v :: vs => (m.write a v).writeBytes (a + 1) vs

/-- Addresses of a list of cells rise strictly, all above a bound. -/
def risingFrom (lo : Nat) : List Host.Cell → Bool
  | [] => true
  | (a, _) :: rest => decide (lo ≤ a) && risingFrom (a + 1) rest

/-- The canonical form: addresses strictly rising and below 4096, no cell equal to what it would read as unlisted. -/
def Memory.wf (m : Memory) : Bool :=
  risingFrom 0 m.cells &&
    m.cells.all (fun c => decide (c.1 < Config.memSize) && decide (c.2 ≠ m.background c.1))

/-! ### Registers, program counter, timers, frame buffer -/

/-- `V[x]` (R21): every register, VF included, is an ordinary one. -/
def State.reg (s : State) (x : Reg) : Byte := s.v[x]

/-- `V[x] <- b` (R8). -/
def State.setReg (s : State) (x : Reg) (b : Byte) : State := { s with v := s.v.set x b }

/-- `I <- w` (R24): 16 bits, never masked. -/
def State.setI (s : State) (w : Word) : State := { s with i := w }

/-- `pc <- w` (R25): the target as given; it is checked at the next fetch (R26, R120). -/
def State.setPc (s : State) (w : Word) : State := { s with pc := w }

/-- `pc <- pc + 2`, the default advance (40_decode_dispatch.md R96). -/
def State.advance (s : State) : State := s.setPc (s.pc + 2)

/-- `pc <- pc + 4` if the condition holds, else `pc <- pc + 2` (R26, R124). -/
def State.skipIf (s : State) (c : Bool) : State := s.setPc (if c then s.pc + 4 else s.pc + 2)

/-- `DT <- b` (R28). -/
def State.setDt (s : State) (b : Byte) : State := { s with dt := b }

/-- `ST <- b` (R28). -/
def State.setSt (s : State) (b : Byte) : State := { s with st := b }

/-- The new contents of the frame buffer (R29). -/
def State.setFb (s : State) (fb : FrameBuffer) : State := { s with fb := fb }

/-- The new contents of memory. -/
def State.setMem (s : State) (m : Memory) : State := { s with mem := m }

/-! ### The stack (R27) -/

/-- `push(v)`: none when 16 frames are live; else `SP <- SP + 1 ; STACK[SP] <- v`. -/
def State.push (s : State) (w : Word) : Option State :=
  if h : s.sp.val < 16 then
    some { s with sp := ⟨s.sp.val + 1, by omega⟩, stack := s.stack.set s.sp.val w }
  else none

/-- `pop()`: none when no frame is live; else `v <- STACK[SP] ; SP <- SP - 1`. The slot keeps its contents. -/
def State.pop (s : State) : Option (Word × State) :=
  if h : 0 < s.sp.val then
    some (s.stack[s.sp.val - 1], { s with sp := ⟨s.sp.val - 1, by omega⟩ })
  else none

/-! ### Fatal conditions (60_exceptions.md R197, R202) -/

/-- `raise C(info)`: `RUN <- 0`, `CAUSE <- C`, `INFO <- info` on the state as it was when the cycle began. Nothing is
saved, there is no handler, `pc` stays at the instruction. There is no return: only reset sets `RUN` again (R200). Every
meaning makes its check before its first effect, so "every state change made so far" is none. -/
def State.raise (s : State) (c : Cause) (info : Word) : State :=
  { s with run := false, cause := c, info := info }

/-! ### Fetch (R91) -/

/-- Whether an instruction word can be fetched at an address: even, and both bytes inside memory (R55, R91). -/
def fetchable (pc : Word) : Bool := pc.toNat % 2 == 0 && decide (pc.toNat ≤ 0xFFE)

/-- `fetch()`: none where R91 raises `FETCH_FAULT(pc)`; else the big-endian word at `pc` (R54). `pc` does not move. -/
def fetch (s : State) : Option Word :=
  if fetchable s.pc then
    some (wordOfBytes (s.mem.read s.pc.toNat) (s.mem.read (s.pc.toNat + 1)))
  else none

/-! ### The timer-tick phase and the inputs of the next cycle -/

/-- A counter steps toward zero and never below it (R203). -/
def countDown (tick : Bool) (t : Byte) : Byte := if t = 0 then 0 else if tick then t - 1 else t

/-- `timer_tick(tick)`: both counters step on the same tick (R203, D23). -/
def State.timerTick (s : State) : State :=
  { s with dt := countDown s.tick s.dt, st := countDown s.tick s.st }

/-- Between two cycles the host may change any key, and the next cycle has its own `tick` and `rnd`: all three are
drawn from free streams (R6, R30, R203, R208; notes/assumptions/1.md). -/
def State.drawInputs (s : State) : State :=
  { s with
    keys := Config.freeKeys s.draws
    tick := Config.freeTick s.draws
    rnd := Config.freeRnd s.draws
    draws := s.draws + 1 }

/-- The end of a cycle after execute: nothing more when a fatal condition was raised (R90, R197); else the timer tick,
and the inputs of the next cycle. -/
def State.finishCycle (s : State) : State :=
  if s.run then s.timerTick.drawInputs else s

/-- A host's move between two cycles: the inputs of the cycle about to run (R6, R205). -/
def State.withInputs (s : State) (keys : Word) (tick : Bool) (rnd : Byte) : State :=
  { s with keys := keys, tick := tick, rnd := rnd }

end Sys2Proof.Machine
end

