-- ==== Sys2Proof/WellFormed.lean ====
section
/-! DEFINITION. What an assembler line must satisfy: the operand ranges of 30_encoding.md R74 and R81, format by
format; and what a program image must satisfy (70_reset_and_hazards.md R222). The fields of `Instr` are typed with
these ranges, so an `Instr` is always well formed: an ill-formed operand can be written only as a raw number. -/

namespace Sys2Proof

/-- Operand values as plain numbers, as an assembler line gives them; an operand the format lacks stays 0. -/
structure RawOperands where
  x : Nat := 0
  y : Nat := 0
  n : Nat := 0
  kk : Nat := 0
  nnn : Nat := 0
  deriving DecidableEq, Repr

/-- Which operand values a format admits: a register is V0 to VF, "`kk` must fit 8 bits, `nnn` 12 bits, `n` 4
bits" (R81). -/
def Format.admits (f : Format) (o : RawOperands) : Bool :=
  match f with
  | .z => true
  | .a => o.nnn < 4096
  | .xk => o.x < 16 && o.kk < 256
  | .xy => o.x < 16 && o.y < 16
  | .xyn => o.x < 16 && o.y < 16 && o.n < 16
  | .x => o.x < 16

/-- The operands of an instruction as plain numbers. -/
def Instr.rawOperands : Instr → RawOperands
  | .halt => {}
  | .cls => {}
  | .ret => {}
  | .jp nnn => { nnn := nnn.toNat }
  | .call nnn => { nnn := nnn.toNat }
  | .seImm x kk => { x := x, kk := kk.toNat }
  | .sneImm x kk => { x := x, kk := kk.toNat }
  | .seReg x y => { x := x, y := y }
  | .ldImm x kk => { x := x, kk := kk.toNat }
  | .addImm x kk => { x := x, kk := kk.toNat }
  | .ldReg x y => { x := x, y := y }
  | .orReg x y => { x := x, y := y }
  | .andReg x y => { x := x, y := y }
  | .xorReg x y => { x := x, y := y }
  | .addReg x y => { x := x, y := y }
  | .subReg x y => { x := x, y := y }
  | .shrReg x y => { x := x, y := y }
  | .subnReg x y => { x := x, y := y }
  | .shlReg x y => { x := x, y := y }
  | .sneReg x y => { x := x, y := y }
  | .ldI nnn => { nnn := nnn.toNat }
  | .jpV0 nnn => { nnn := nnn.toNat }
  | .rnd x kk => { x := x, kk := kk.toNat }
  | .drw x y n => { x := x, y := y, n := n.toNat }
  | .skp x => { x := x }
  | .sknp x => { x := x }
  | .ldVxDt x => { x := x }
  | .ldVxK x => { x := x }
  | .ldDtVx x => { x := x }
  | .ldStVx x => { x := x }
  | .addIVx x => { x := x }
  | .ldFVx x => { x := x }
  | .ldBVx x => { x := x }
  | .ldMemVx x => { x := x }
  | .ldVxMem x => { x := x }

/-- An instruction is well formed when its format admits its operands. -/
def Instr.wellFormed (i : Instr) : Bool := i.format.admits i.rawOperands

/-- The launch premise of R222: an image of at most 3584 bytes. -/
def imageFits (image : List Byte) : Bool := image.length ≤ Config.maxImage

end Sys2Proof
end

