-- ==== Sys2Proof/Machine/Boot.lean ====
section
/-! DEFINITION. Program load as part of reset (70_reset_and_hazards.md R221, R222), and placing one word where the next
cycle fetches. -/

namespace Sys2Proof.Machine

/-- Reset with the configuration `FONT` and a program image, the launch input `PROGRAM` (R6): byte k of the image goes
to 0x200 + k, unchanged; an image of more than 3584 bytes is refused (R222, D28). -/
def State.launch (font : Vector Byte Config.fontSize) (image : List Byte) : Host.Outcome State Fault Refusal :=
  let s := State.resetWith font
  if imageFits image then .next (s.setMem (s.mem.writeBytes Config.programOrigin.toNat image))
  else .refused (.imageTooLong image.length)

/-- A state from which the next cycle fetches: unchanged where it already does. -/
def State.readyToFetch (s : State) : State :=
  let t := if s.run then s else { s with run := true, cause := .none, info := 0 }
  if fetchable t.pc then t else t.setPc Config.programOrigin

/-- The word stored where the next cycle fetches, high byte first (R54, R83). -/
def State.placeWord (s : State) (w : Word) : State :=
  s.readyToFetch.setMem (s.mem.writeBytes s.readyToFetch.pc.toNat (bytesOfWord w))

end Sys2Proof.Machine
end

