-- ==== Sys2Proof/Machine/Flags.lean ====
section
/-! DEFINITION. The values written to VF as a flag (10_state.md R22), computed exactly on numbers and narrowed at the
end (00_scope.md R9), and the two ways a result and a flag are written (41_arithmetic_register.md R100, R109). -/

namespace Sys2Proof.Machine

/-- A flag as the 8-bit value 0x00 or 0x01 (R22). -/
def flagByte (b : Bool) : Byte := if b then 1 else 0

/-- `s mod 256` for a mathematical sum, and its carry: 1 iff the sum exceeds 255 (R107). -/
def addWithCarry (a b : Byte) : Byte × Byte :=
  let sum := a.toNat + b.toNat
  (BitVec.ofNat 8 sum, flagByte (decide (sum > 255)))

/-- `(a - b) mod 256`, and the not-borrow flag: 1 iff a is strictly greater than b (R108, R110). -/
def subWithNotBorrow (a b : Byte) : Byte × Byte :=
  (BitVec.ofInt 8 ((a.toNat : Int) - (b.toNat : Int)), flagByte (decide (a.toNat > b.toNat)))

/-- `v >> 1`, and the bit shifted out, bit 0 (R109). -/
def shiftRightOut (v : Byte) : Byte × Byte := (v >>> 1, v &&& 1)

/-- `(v << 1) mod 256`, and the bit shifted out, bit 7 (R111). -/
def shiftLeftOut (v : Byte) : Byte × Byte := (v <<< 1, v >>> 7)

/-- `write_result_and_flag(x, result, flag)` of R100 under a value of `VF_DEST_ORDER`: with x = 15 both writes land on
VF and the order decides; otherwise they land on two registers. -/
def State.writeResultAndFlag (s : State) (order : VfDestOrder) (x : Reg) (rf : Byte × Byte) : State :=
  if x = vf then
    match order with
    | .flagLast => s.setReg vf rf.2
    | .destLast => s.setReg vf rf.1
  else (s.setReg x rf.1).setReg vf rf.2

/-- The order the source fixes for the shifts: the flag first, then the result (R109, R111). -/
def State.writeFlagThenResult (s : State) (x : Reg) (rf : Byte × Byte) : State :=
  (s.setReg vf rf.2).setReg x rf.1

end Sys2Proof.Machine
end

