-- ==== Sys2Proof/Machine/Operands.lean ====
section
/-! DEFINITION. The operand forms: literals, register values as numbers with a legal range, the memory range addressed
through `I`, and the register lists of the block transfers. Sources are read from the state before any write (R23). -/

namespace Sys2Proof.Machine

/-- `nnn` zero-extended to 16 bits, for `pc` and `I` (30_encoding.md R74). -/
def litAddr (nnn : Lit12) : Word := nnn.zeroExtend 16

/-- A register value zero-extended to 16 bits (R128, R172, R190). -/
def zext16 (b : Byte) : Word := b.zeroExtend 16

/-- A register value used as a key number or a hexadecimal digit: legal 0 to 15, not masked (60_exceptions.md R196). -/
def nibbleOperand (b : Byte) : Option (Fin 16) :=
  if h : b.toNat < 16 then some ⟨b.toNat, h⟩ else none

/-- `KEY[k]` of this cycle's snapshot. The host writes only between cycles, so the snapshot is the latch itself
(10_state.md R30; notes/assumptions/8.md). -/
def State.keyDown (s : State) (k : Fin 16) : Bool := s.keys.getLsbD k

/-- The least k in 0 to 15 with `KEY[k]` = 1, if there is one (R166). -/
def State.leastKeyDown (s : State) : Option (Fin 16) := (List.finRange 16).find? s.keyDown

/-- The range check of 20_memory.md R57 for len bytes from `I`: the lowest address of the range above 0xFFF when the
range passes 0xFFF, else none. A range of no bytes never faults. -/
def rangeFault (base : Word) (len : Nat) : Option Word :=
  if len ≠ 0 ∧ base.toNat + len - 1 > 0xFFF then some (if base.toNat < 0x1000 then 0x1000 else base) else none

/-- The values of V0 to Vx, in order, for the block store (R169). -/
def State.regsUpTo (s : State) (x : Reg) : List Byte := s.v.toList.take (x.val + 1)

/-- `for k in 0 .. x: V[k] <- MemRead(I + k, 1)` (R170): the registers after the block load; those above x keep their
values. -/
def State.loadRegsUpTo (s : State) (x : Reg) : Vector Byte 16 :=
  Vector.ofFn fun k => if k ≤ x then s.mem.read (s.i.toNat + k) else s.reg k

/-- The three decimal digits of a value: hundreds, tens, ones (R168). -/
def bcdDigits (b : Byte) : List Byte :=
  [BitVec.ofNat 8 (b.toNat / 100), BitVec.ofNat 8 (b.toNat / 10 % 10), BitVec.ofNat 8 (b.toNat % 10)]

/-- The address of the glyph of a digit: 5 bytes each from 0x000 (R52, R167). -/
def glyphAddr (d : Fin 16) : Word := BitVec.ofNat 16 (5 * d.val)

end Sys2Proof.Machine
end

