-- ==== Sys2Proof/Machine/Arith.lean ====
section
/-! DEFINITION. The meanings of the arithmetic and register instructions (41_arithmetic_register.md R101 to R112). None
raises a fatal condition; each ends with the default advance (R100). -/

namespace Sys2Proof.Machine

/-- `LD Vx,kk` (R101). -/
def execLdImm (x : Reg) (kk : Byte) (s : State) : Host.Outcome State Fault Refusal :=
  .next (s.setReg x kk).advance

/-- `ADD Vx,kk` (R102): wraps modulo 256, no flag. -/
def execAddImm (x : Reg) (kk : Byte) (s : State) : Host.Outcome State Fault Refusal :=
  .next (s.setReg x (BitVec.ofNat 8 ((s.reg x).toNat + kk.toNat))).advance

/-- `LD Vx,Vy` (R103). -/
def execLdReg (x y : Reg) (s : State) : Host.Outcome State Fault Refusal :=
  .next (s.setReg x (s.reg y)).advance

/-- `OR Vx,Vy` (R104). -/
def execOrReg (x y : Reg) (s : State) : Host.Outcome State Fault Refusal :=
  .next (s.setReg x (s.reg x ||| s.reg y)).advance

/-- `AND Vx,Vy` (R105). -/
def execAndReg (x y : Reg) (s : State) : Host.Outcome State Fault Refusal :=
  .next (s.setReg x (s.reg x &&& s.reg y)).advance

/-- `XOR Vx,Vy` (R106). -/
def execXorReg (x y : Reg) (s : State) : Host.Outcome State Fault Refusal :=
  .next (s.setReg x (s.reg x ^^^ s.reg y)).advance

/-- `ADD Vx,Vy` (R107): with x = 15 the order of the writes is `VF_DEST_ORDER` (R100). -/
def execAddReg (x y : Reg) (s : State) : Host.Outcome State Fault Refusal :=
  .next (s.writeResultAndFlag Config.vfDestOrder x (addWithCarry (s.reg x) (s.reg y))).advance

/-- `SUB Vx,Vy` (R108): minuend Vx, subtrahend Vy. -/
def execSubReg (x y : Reg) (s : State) : Host.Outcome State Fault Refusal :=
  .next (s.writeResultAndFlag Config.vfDestOrder x (subWithNotBorrow (s.reg x) (s.reg y))).advance

/-- `SHR Vx,Vy` (R109): the value shifted is Vy; VF first, then Vx. -/
def execShrReg (x y : Reg) (s : State) : Host.Outcome State Fault Refusal :=
  .next (s.writeFlagThenResult x (shiftRightOut (s.reg y))).advance

/-- `SUBN Vx,Vy` (R110): minuend Vy, subtrahend Vx; the destination is still Vx. -/
def execSubnReg (x y : Reg) (s : State) : Host.Outcome State Fault Refusal :=
  .next (s.writeResultAndFlag Config.vfDestOrder x (subWithNotBorrow (s.reg y) (s.reg x))).advance

/-- `SHL Vx,Vy` (R111): the value shifted is Vy; VF first, then Vx. -/
def execShlReg (x y : Reg) (s : State) : Host.Outcome State Fault Refusal :=
  .next (s.writeFlagThenResult x (shiftLeftOut (s.reg y))).advance

/-- `RND Vx,kk` (R112): this cycle's random byte, masked. -/
def execRnd (x : Reg) (kk : Byte) (s : State) : Host.Outcome State Fault Refusal :=
  .next (s.setReg x (s.rnd &&& kk)).advance

end Sys2Proof.Machine
end

