-- ==== Sys2Proof/Machine/Control.lean ====
section
/-! DEFINITION. The meanings of `HALT` (40_decode_dispatch.md R94) and of the control-flow and stack instructions
(42_control_flow.md R121 to R128). -/

namespace Sys2Proof.Machine

/-- `HALT` (R94): always raises `HALT(0)`. -/
def execHalt (s : State) : Host.Outcome State Fault Refusal :=
  .next (s.raise .halt 0)

/-- `JP nnn` (R121): the target is checked at the next fetch only. -/
def execJp (nnn : Lit12) (s : State) : Host.Outcome State Fault Refusal :=
  .next (s.setPc (litAddr nnn))

/-- `CALL nnn` (R122): pushes the address of the `CALL` itself; `STACK_FAULT(16)` when 16 frames are live. -/
def execCall (nnn : Lit12) (s : State) : Host.Outcome State Fault Refusal :=
  match s.push s.pc with
  | none => .next (s.raise .stackFault (BitVec.ofNat 16 s.sp.val))
  | some t => .next (t.setPc (litAddr nnn))

/-- `RET` (R123): resumes at the popped call-site address plus 2; `STACK_FAULT(0)` when no frame is live. -/
def execRet (s : State) : Host.Outcome State Fault Refusal :=
  match s.pop with
  | none => .next (s.raise .stackFault (BitVec.ofNat 16 s.sp.val))
  | some (w, t) => .next (t.setPc (w + 2))

/-- `SE Vx,kk` (R124). -/
def execSeImm (x : Reg) (kk : Byte) (s : State) : Host.Outcome State Fault Refusal :=
  .next (s.skipIf (s.reg x == kk))

/-- `SNE Vx,kk` (R125). -/
def execSneImm (x : Reg) (kk : Byte) (s : State) : Host.Outcome State Fault Refusal :=
  .next (s.skipIf (s.reg x != kk))

/-- `SE Vx,Vy` (R126). -/
def execSeReg (x y : Reg) (s : State) : Host.Outcome State Fault Refusal :=
  .next (s.skipIf (s.reg x == s.reg y))

/-- `SNE Vx,Vy` (R127). -/
def execSneReg (x y : Reg) (s : State) : Host.Outcome State Fault Refusal :=
  .next (s.skipIf (s.reg x != s.reg y))

/-- `JP V0,nnn` (R128): nnn + V0, not reduced modulo 4096. -/
def execJpV0 (nnn : Lit12) (s : State) : Host.Outcome State Fault Refusal :=
  .next (s.setPc (litAddr nnn + zext16 (s.reg 0)))

end Sys2Proof.Machine
end

