-- ==== Sys2Proof/Machine/Draw.lean ====
section
/-! DEFINITION. The frame-buffer compositor and the meanings of `CLS` and `DRW` (43_draw.md R141 to R146). -/

namespace Sys2Proof.Machine

/-- All 2048 pixels off (R141). -/
def blankFb : FrameBuffer := Vector.replicate 32 (Vector.replicate 64 false)

/-- What a draw works on: the frame buffer so far, and whether any pixel has gone from on to off (R142, R145). -/
structure Canvas where
  fb : FrameBuffer
  collision : Bool
  deriving DecidableEq, Repr

/-- The pixel in row yy, column xx, off where there is none. -/
def FrameBuffer.pixel (fb : FrameBuffer) (yy xx : Nat) : Bool :=
  if h : yy < 32 ∧ xx < 64 then fb[yy][xx] else false

/-- XOR one set sprite bit into row yy, column xx: toggle the pixel, and note a collision when it was on; a column past
63 or a row past 31 is clipped (R142, R143). -/
def Canvas.toggle (p : Canvas) (yy xx : Nat) : Canvas :=
  if h : yy < 32 ∧ xx < 64 then
    { fb := p.fb.set yy (p.fb[yy].set xx (!p.fb[yy][xx]))
      collision := p.collision || p.fb[yy][xx] }
  else p

/-- The first n of the 8 columns of one sprite row b at row yy, from column x0: bit 7 - c goes to column x0 + c, so bit 7
is the leftmost (R144). -/
def Canvas.drawCols (p : Canvas) (b : Byte) (yy x0 : Nat) : Nat → Canvas
  | 0 => p
  | c + 1 =>
    let q := p.drawCols b yy x0 c
    if b.getLsbD (7 - c) then q.toggle yy (x0 + c) else q

/-- The first n rows of a sprite at address base, from row y0: row r is the byte at base + r; rows past row 31 are
clipped and not read (R142, R143). -/
def Canvas.drawRows (p : Canvas) (m : Memory) (base y0 x0 : Nat) : Nat → Canvas
  | 0 => p
  | r + 1 =>
    let q := p.drawRows m base y0 x0 r
    if y0 + r ≤ 31 then q.drawCols (m.read (base + r)) (y0 + r) x0 8 else q

/-- The whole sprite: nothing is drawn when the start coordinate is off the screen (R142, R143). -/
def drawSprite (fb : FrameBuffer) (m : Memory) (base y0 x0 n : Nat) : Canvas :=
  let start : Canvas := { fb := fb, collision := false }
  if x0 ≤ 63 ∧ y0 ≤ 31 then start.drawRows m base y0 x0 n else start

/-- `CLS` (R141): VF is not changed. -/
def execCls (s : State) : Host.Outcome State Fault Refusal :=
  .next (s.setFb blankFb).advance

/-- `DRW Vx,Vy,n` (R142): the coordinates are read before VF is written; `MEM_FAULT` before anything is drawn when the
range of all n rows passes 0xFFF (R146); VF is always written (R145). -/
def execDrw (x y : Reg) (n : Nibble) (s : State) : Host.Outcome State Fault Refusal :=
  match rangeFault s.i n.toNat with
  | some a => .next (s.raise .memFault a)
  | none =>
    let p := drawSprite s.fb s.mem s.i.toNat (s.reg y).toNat (s.reg x).toNat n.toNat
    .next ((s.setFb p.fb).setReg vf (flagByte p.collision)).advance

end Sys2Proof.Machine
end

