-- ==== Sys2Proof/Machine/TimerInput.lean ====
section
/-! DEFINITION. The meanings of the timer copies, the key instructions, the font address and the address-register
instructions (44_timer_input_memory.md R161 to R167, R171, R172). -/

namespace Sys2Proof.Machine

/-- `LD Vx,DT` (R161): the value before this cycle's tick. -/
def execLdVxDt (x : Reg) (s : State) : Host.Outcome State Fault Refusal :=
  .next (s.setReg x s.dt).advance

/-- `LD DT,Vx` (R162): this cycle's tick comes after. -/
def execLdDtVx (x : Reg) (s : State) : Host.Outcome State Fault Refusal :=
  .next (s.setDt (s.reg x)).advance

/-- `LD ST,Vx` (R163). -/
def execLdStVx (x : Reg) (s : State) : Host.Outcome State Fault Refusal :=
  .next (s.setSt (s.reg x)).advance

/-- `SKP Vx` (R164): `OPERAND_FAULT` when V[x] > 15. -/
def execSkp (x : Reg) (s : State) : Host.Outcome State Fault Refusal :=
  match nibbleOperand (s.reg x) with
  | none => .next (s.raise .operandFault (zext16 (s.reg x)))
  | some k => .next (s.skipIf (s.keyDown k))

/-- `SKNP Vx` (R165): `OPERAND_FAULT` when V[x] > 15. -/
def execSknp (x : Reg) (s : State) : Host.Outcome State Fault Refusal :=
  match nibbleOperand (s.reg x) with
  | none => .next (s.raise .operandFault (zext16 (s.reg x)))
  | some k => .next (s.skipIf (!s.keyDown k))

/-- `LD Vx,K` (R166): the least key that is down, or nothing at all, `pc` included, while none is. -/
def execLdVxK (x : Reg) (s : State) : Host.Outcome State Fault Refusal :=
  match s.leastKeyDown with
  | some k => .next (s.setReg x (BitVec.ofNat 8 k.val)).advance
  | none => .next s

/-- `LD F,Vx` (R167): `OPERAND_FAULT` when V[x] > 15; no memory is read. -/
def execLdFVx (x : Reg) (s : State) : Host.Outcome State Fault Refusal :=
  match nibbleOperand (s.reg x) with
  | none => .next (s.raise .operandFault (zext16 (s.reg x)))
  | some d => .next (s.setI (glyphAddr d)).advance

/-- `LD I,nnn` (R171). -/
def execLdI (nnn : Lit12) (s : State) : Host.Outcome State Fault Refusal :=
  .next (s.setI (litAddr nnn)).advance

/-- `ADD I,Vx` (R172): 16-bit sum, VF not written. -/
def execAddIVx (x : Reg) (s : State) : Host.Outcome State Fault Refusal :=
  .next (s.setI (s.i + zext16 (s.reg x))).advance

end Sys2Proof.Machine
end

