-- ==== Sys2Proof/Machine/Transfer.lean ====
section
/-! DEFINITION. The meanings of the instructions that move registers to and from memory through `I`
(44_timer_input_memory.md R168 to R170). Each checks its whole range first (R57, R160). -/

namespace Sys2Proof.Machine

/-- `LD B,Vx` (R168): hundreds, tens, ones at `I`, `I + 1`, `I + 2`; `I` is unchanged. -/
def execLdBVx (x : Reg) (s : State) : Host.Outcome State Fault Refusal :=
  match rangeFault s.i 3 with
  | some a => .next (s.raise .memFault a)
  | none => .next (s.setMem (s.mem.writeBytes s.i.toNat (bcdDigits (s.reg x)))).advance

/-- `LD [I],Vx` (R169): V0 to Vx at `I` upward, then `I <- I + x + 1`. -/
def execLdMemVx (x : Reg) (s : State) : Host.Outcome State Fault Refusal :=
  match rangeFault s.i (x.val + 1) with
  | some a => .next (s.raise .memFault a)
  | none =>
    .next ((s.setMem (s.mem.writeBytes s.i.toNat (s.regsUpTo x))).setI
      (s.i + BitVec.ofNat 16 (x.val + 1))).advance

/-- `LD Vx,[I]` (R170): V0 to Vx from `I` upward, then `I <- I + x + 1`. -/
def execLdVxMem (x : Reg) (s : State) : Host.Outcome State Fault Refusal :=
  match rangeFault s.i (x.val + 1) with
  | some a => .next (s.raise .memFault a)
  | none =>
    .next (({ s with v := s.loadRegsUpTo x }).setI (s.i + BitVec.ofNat 16 (x.val + 1))).advance

end Sys2Proof.Machine
end

