-- ==== Sys2Proof/Machine/Step.lean ====
section
/-! DEFINITION. One cycle (40_decode_dispatch.md R90): fetch, decode, execute, timer tick. -/

namespace Sys2Proof.Machine

/-- One requested cycle. A stopped core does nothing (R97); a fetch that cannot be made and a word that is no
instruction raise their fatal condition (R91, R95); otherwise the decoded instruction is executed and the cycle
finished. The order of the checks is their priority (60_exceptions.md R198). -/
def step (s : State) : Host.Outcome State Fault Refusal :=
  if s.run then
    match fetch s with
    | none => .next (s.raise .fetchFault s.pc)
    | some w =>
      match decodeWord w with
      | .error _ => .next (s.raise .decodeError w)
      | .ok i =>
        match exec i s with
        | .next t => .next t.finishCycle
        | .fault r => .fault r
        | .refused r => .refused r
  else .next s

/-- The state with a table row's word where the next step fetches (notes/assumptions/13.md): the two bytes go to `pc`,
high byte first. A state that could not fetch at all is first made able to: a stopped core is set running, and a `pc` no
word can be fetched from is set to the program origin. -/
def State.withFetchWord (s : State) (nbits w : Nat) : State :=
  s.placeWord (tableWord nbits w)

end Sys2Proof.Machine
end

