-- ==== Sys2Proof/Safety.lean ====
section
/-! DEFINITION. The end of a run (70_reset_and_hazards.md R229), and the invariants of a machine state that claims
use. -/

namespace Sys2Proof

open Machine

/-- The run has ended (R229): exactly when `RUN` = 0. -/
def ended (s : State) : Prop := s.run = false

/-- The successful end: stopped by `HALT` (R191, R229). -/
def endedWell (s : State) : Prop := s.run = false ∧ s.cause = .halt

/-- A faulted state: stopped by any cause but `HALT`; "never a good final state" (R229). -/
def faulted (s : State) : Prop := s.run = false ∧ s.cause ≠ .halt

/-- The latches agree (R32): `CAUSE` and `INFO` are 0 while `RUN` = 1, and a stopped machine has a cause. -/
def LatchesAgree (s : State) : Prop :=
  (s.run = true → s.cause = .none ∧ s.info = 0) ∧ (s.run = false → s.cause ≠ .none)

/-- `pc` is at most 0x10FE, and every live stack slot holds an even address of at most 0xFFE, the address of the `CALL`
that pushed it (10_state.md R26, R27). -/
def PcBounded (s : State) : Prop :=
  s.pc.toNat ≤ 0x10FE ∧
    ∀ k : Fin 16, k.val < s.sp.val → s.stack[k].toNat ≤ 0xFFE ∧ s.stack[k].toNat % 2 = 0

/-- Memory is in its canonical form. -/
def MemoryCanonical (s : State) : Prop := s.mem.wf = true

end Sys2Proof
end

