-- ==== Sys2Proof/Certificates/Slice0/Obligations.lean ====
section
/-! DEFINITION. The statements about this machine, one `def Obligations.<Name> : Prop` each, from the numbered rules of
spec/. The words they are stated in stand first. "log n" is notes/assumptions/n.md; "D n" is a decision that the spec
marks as its own (92_eei_decisions.md). -/

open Sys2Proof Sys2Proof.Machine

namespace Sys2Proof.Claims

/-! ### Words and rows of the opcode table, as numbers (30_encoding.md R72, R75) -/

/-- The word with fields `op`, `nnn`: `W[15:12]` and `W[11:0]`. -/
def numA (op : Nat) (nnn : Lit12) : Word := BitVec.ofNat 16 (op * 4096 + nnn.toNat)

/-- The word with fields `op`, `x`, `kk`: `W[15:12]`, `W[11:8]`, `W[7:0]`. -/
def numXK (op : Nat) (x : Reg) (kk : Nat) : Word := BitVec.ofNat 16 (op * 4096 + x.val * 256 + kk)

/-- The word with fields `op`, `x`, `y`, `n`: `W[15:12]`, `W[11:8]`, `W[7:4]`, `W[3:0]`. -/
def numXY (op : Nat) (x y : Reg) (n : Nat) : Word := BitVec.ofNat 16 (op * 4096 + x.val * 256 + y.val * 16 + n)

/-- The instruction with the operands a word's fields hold, for a register destination (R72, R92). -/
def withX (f : Reg → Instr) (w : Word) : Instr := f ⟨w.toNat / 256 % 16, by omega⟩

/-- As `withX`, with the literal byte `kk`. -/
def withXK (f : Reg → Byte → Instr) (w : Word) : Instr :=
  f ⟨w.toNat / 256 % 16, by omega⟩ (BitVec.ofNat 8 (w.toNat % 256))

/-- As `withX`, with the second register `y`. -/
def withXY (f : Reg → Reg → Instr) (w : Word) : Instr :=
  f ⟨w.toNat / 256 % 16, by omega⟩ ⟨w.toNat / 16 % 16, by omega⟩

/-- As `withXY`, with the row count `n`. -/
def withXYN (f : Reg → Reg → Nibble → Instr) (w : Word) : Instr :=
  f ⟨w.toNat / 256 % 16, by omega⟩ ⟨w.toNat / 16 % 16, by omega⟩ (BitVec.ofNat 4 (w.toNat % 16))

/-- The instruction with the literal address `nnn`. -/
def withNNN (f : Lit12 → Instr) (w : Word) : Instr := f (BitVec.ofNat 12 (w.toNat % 4096))

/-- One row of the opcode map of R75: mask, match, and the operation with the fields of the word. -/
structure Row where
  mask : Word
  pattern : Word
  instr : Word → Instr

/-- A word selects a row exactly when `(W and mask) = match` (R75). -/
def Row.selects (r : Row) (w : Word) : Prop := w &&& r.mask = r.pattern

/-- The 35 rows of R75, in its order. -/
def opcodeMap : List Row :=
  [⟨0xFFFF, 0x0000, fun _ => .halt⟩, ⟨0xFFFF, 0x00E0, fun _ => .cls⟩, ⟨0xFFFF, 0x00EE, fun _ => .ret⟩,
   ⟨0xF000, 0x1000, withNNN .jp⟩, ⟨0xF000, 0x2000, withNNN .call⟩, ⟨0xF000, 0x3000, withXK .seImm⟩,
   ⟨0xF000, 0x4000, withXK .sneImm⟩, ⟨0xF00F, 0x5000, withXY .seReg⟩, ⟨0xF000, 0x6000, withXK .ldImm⟩,
   ⟨0xF000, 0x7000, withXK .addImm⟩, ⟨0xF00F, 0x8000, withXY .ldReg⟩, ⟨0xF00F, 0x8001, withXY .orReg⟩] ++
  [⟨0xF00F, 0x8002, withXY .andReg⟩, ⟨0xF00F, 0x8003, withXY .xorReg⟩, ⟨0xF00F, 0x8004, withXY .addReg⟩,
   ⟨0xF00F, 0x8005, withXY .subReg⟩, ⟨0xF00F, 0x8006, withXY .shrReg⟩, ⟨0xF00F, 0x8007, withXY .subnReg⟩,
   ⟨0xF00F, 0x800E, withXY .shlReg⟩, ⟨0xF00F, 0x9000, withXY .sneReg⟩, ⟨0xF000, 0xA000, withNNN .ldI⟩,
   ⟨0xF000, 0xB000, withNNN .jpV0⟩, ⟨0xF000, 0xC000, withXK .rnd⟩, ⟨0xF000, 0xD000, withXYN .drw⟩] ++
  [⟨0xF0FF, 0xE09E, withX .skp⟩, ⟨0xF0FF, 0xE0A1, withX .sknp⟩, ⟨0xF0FF, 0xF007, withX .ldVxDt⟩,
   ⟨0xF0FF, 0xF00A, withX .ldVxK⟩, ⟨0xF0FF, 0xF015, withX .ldDtVx⟩, ⟨0xF0FF, 0xF018, withX .ldStVx⟩,
   ⟨0xF0FF, 0xF01E, withX .addIVx⟩, ⟨0xF0FF, 0xF029, withX .ldFVx⟩, ⟨0xF0FF, 0xF033, withX .ldBVx⟩,
   ⟨0xF0FF, 0xF055, withX .ldMemVx⟩, ⟨0xF0FF, 0xF065, withX .ldVxMem⟩]

/-- The six lines of the table of R77, on the fields of a word. -/
def listedUnrecognised (w : Nat) : Prop :=
  (w / 4096 = 0x0 ∧ ¬ (w % 4096 = 0x000 ∨ w % 4096 = 0x0E0 ∨ w % 4096 = 0x0EE)) ∨
  (w / 4096 = 0x5 ∧ w % 16 ≠ 0) ∨
  (w / 4096 = 0x8 ∧ (w % 16 = 8 ∨ w % 16 = 9 ∨ w % 16 = 0xA ∨ w % 16 = 0xB ∨ w % 16 = 0xC ∨ w % 16 = 0xD ∨
    w % 16 = 0xF)) ∨
  (w / 4096 = 0x9 ∧ w % 16 ≠ 0) ∨
  (w / 4096 = 0xE ∧ ¬ (w % 256 = 0x9E ∨ w % 256 = 0xA1)) ∨
  (w / 4096 = 0xF ∧ ¬ (w % 256 = 0x07 ∨ w % 256 = 0x0A ∨ w % 256 = 0x15 ∨ w % 256 = 0x18 ∨ w % 256 = 0x1E ∨
    w % 256 = 0x29 ∨ w % 256 = 0x33 ∨ w % 256 = 0x55 ∨ w % 256 = 0x65))

/-- One word per row of groups 0 to 8 with what it decodes to, as 95_test_vectors.md T2 writes them out. -/
def sampleWordsA : List (Word × Instr) :=
  [(0x0000, .halt), (0x00E0, .cls), (0x00EE, .ret), (0x1ABC, .jp 0xABC), (0x2ABC, .call 0xABC),
   (0x3A7F, .seImm 0xA 0x7F), (0x4A7F, .sneImm 0xA 0x7F), (0x5120, .seReg 1 2), (0x6392, .ldImm 3 0x92),
   (0x7301, .addImm 3 0x01), (0x8120, .ldReg 1 2), (0x8121, .orReg 1 2), (0x8122, .andReg 1 2)]

/-- As `sampleWordsA`, groups 8 to D. -/
def sampleWordsB : List (Word × Instr) :=
  [(0x8123, .xorReg 1 2), (0x8AB4, .addReg 0xA 0xB), (0x8125, .subReg 1 2), (0x8126, .shrReg 1 2),
   (0x8127, .subnReg 1 2), (0x812E, .shlReg 1 2), (0x9120, .sneReg 1 2), (0xA300, .ldI 0x300),
   (0xB300, .jpV0 0x300), (0xC10F, .rnd 1 0x0F), (0xD123, .drw 1 2 3)]

/-- As `sampleWordsA`, groups E and F. -/
def sampleWordsC : List (Word × Instr) :=
  [(0xE59E, .skp 5), (0xE5A1, .sknp 5), (0xF107, .ldVxDt 1), (0xF20A, .ldVxK 2), (0xF015, .ldDtVx 0),
   (0xF018, .ldStVx 0), (0xF11E, .addIVx 1), (0xF029, .ldFVx 0), (0xF033, .ldBVx 0), (0xF255, .ldMemVx 2),
   (0xF265, .ldVxMem 2)]

/-- One word for each of the 35 rows. -/
def sampleWords : List (Word × Instr) := sampleWordsA ++ sampleWordsB ++ sampleWordsC

/-! ### Outcomes and frames -/

/-- A function applied to the next state of an outcome. -/
def mapNext (f : State → State) : Host.Outcome State Fault Refusal → Host.Outcome State Fault Refusal
  | .next t => .next (f t)
  | .fault r => .fault r
  | .refused r => .refused r

/-- The state a fatal condition leaves (60_exceptions.md R197, R202): the state before, with the three latches
written. -/
def stopped (s : State) (c : Cause) (info : Nat) : State :=
  { s with run := false, cause := c, info := BitVec.ofNat 16 info }

/-- The frame of an instruction that writes general registers only: `pc` has advanced by 2, and apart from the named
registers all of the state is as it was: every other register, `I`, stack, timers, frame buffer, keys, every byte of
memory, latches. -/
def OnlyRegisters (named : Reg → Prop) (s t : State) : Prop :=
  t = { s with v := t.v, pc := s.pc + 2 } ∧ ∀ k : Reg, ¬ named k → t.v[k] = s.v[k]

/-- What `write_result_and_flag` of R100 leaves: two registers, or with x = 15 the one that `VF_DEST_ORDER` writes last,
whichever order that is. -/
def ResultAndFlag (x : Reg) (result flag : Nat) (t : State) : Prop :=
  (x ≠ 15 → t.v[x].toNat = result ∧ t.v[15].toNat = flag) ∧
  (x = 15 → t.v[15].toNat = match Config.vfDestOrder with
    | .flagLast => flag
    | .destLast => result)

/-- Whether a data access of len bytes from `I` stays inside memory (20_memory.md R57). -/
def InRange (s : State) (len : Nat) : Prop := len = 0 ∨ s.i.toNat + len - 1 ≤ 0xFFF

/-- The state after a data access whose range passes 0xFFF (R57, R195). -/
def memFaulted (s : State) : State := stopped s .memFault (max s.i.toNat 0x1000)

/-- The fatal condition an instruction raises at execute, with its `INFO`, from the table of 60_exceptions.md R190. -/
def fatalOf (s : State) : Instr → Option (Cause × Nat)
  | .halt => some (.halt, 0)
  | .call _ => if s.sp.val = 16 then some (.stackFault, 16) else none
  | .ret => if s.sp.val = 0 then some (.stackFault, 0) else none
  | .drw _ _ n =>
    if n.toNat ≥ 1 ∧ s.i.toNat + n.toNat - 1 > 0xFFF then some (.memFault, max s.i.toNat 0x1000) else none
  | .ldBVx _ => if s.i.toNat + 2 > 0xFFF then some (.memFault, max s.i.toNat 0x1000) else none
  | .ldMemVx x => if s.i.toNat + x.val > 0xFFF then some (.memFault, max s.i.toNat 0x1000) else none
  | .ldVxMem x => if s.i.toNat + x.val > 0xFFF then some (.memFault, max s.i.toNat 0x1000) else none
  | .skp x => if s.v[x].toNat > 15 then some (.operandFault, s.v[x].toNat) else none
  | .sknp x => if s.v[x].toNat > 15 then some (.operandFault, s.v[x].toNat) else none
  | .ldFVx x => if s.v[x].toNat > 15 then some (.operandFault, s.v[x].toNat) else none
  | _ => none

/-- Whether the sprite of `DRW Vx,Vy,n` has a set bit on pixel (r, c), by R142 to R144: the start coordinate is on the
screen, row r - V[y] of the n rows is the byte at `I` + that row, and its bit 7 - (c - V[x]) stands at column c. -/
def spriteCovers (s : State) (x y : Reg) (n : Nibble) (r c : Nat) : Bool :=
  let x0 := s.v[x].toNat
  let y0 := s.v[y].toNat
  decide (x0 ≤ 63 ∧ y0 ≤ 31 ∧ y0 ≤ r ∧ r < y0 + n.toNat ∧ x0 ≤ c ∧ c < x0 + 8) &&
    (s.mem.read (s.i.toNat + (r - y0))).getLsbD (7 - (c - x0))

/-- How the instruction sets the next `pc` when it completes, from the table of 10_state.md R26. -/
def NextPc (s t : State) : Instr → Prop
  | .jp nnn => t.pc.toNat = nnn.toNat
  | .call nnn => t.pc.toNat = nnn.toNat
  | .jpV0 nnn => t.pc.toNat = nnn.toNat + s.v[0].toNat
  | .ret => ∀ k : Fin 16, k.val + 1 = s.sp.val → t.pc = s.stack[k] + 2
  | .seImm x kk => t.pc = if s.v[x] = kk then s.pc + 4 else s.pc + 2
  | .sneImm x kk => t.pc = if s.v[x] ≠ kk then s.pc + 4 else s.pc + 2
  | .seReg x y => t.pc = if s.v[x] = s.v[y] then s.pc + 4 else s.pc + 2
  | .sneReg x y => t.pc = if s.v[x] ≠ s.v[y] then s.pc + 4 else s.pc + 2
  | .skp x => t.pc = if s.keys.getLsbD s.v[x].toNat = true then s.pc + 4 else s.pc + 2
  | .sknp x => t.pc = if s.keys.getLsbD s.v[x].toNat = false then s.pc + 4 else s.pc + 2
  | .ldVxK _ => t.pc = if s.keys ≠ 0 then s.pc + 2 else s.pc
  | _ => t.pc = s.pc + 2

/-! ### Which instructions touch which state (10_state.md R20, R22) -/

/-- The six instructions that write VF as a flag (R22), with their destination register, if it can be VF itself. -/
def flagWriter : Instr → Option (Option Reg)
  | .addReg x _ => some (some x)
  | .subReg x _ => some (some x)
  | .shrReg x _ => some (some x)
  | .subnReg x _ => some (some x)
  | .shlReg x _ => some (some x)
  | .drw _ _ _ => some none
  | _ => none

/-- The instructions outside those six that have VF as a named destination, or in the range of a block load (R22). -/
def namesVf : Instr → Prop
  | .ldImm x _ => x = 15
  | .addImm x _ => x = 15
  | .ldReg x _ => x = 15
  | .orReg x _ => x = 15
  | .andReg x _ => x = 15
  | .xorReg x _ => x = 15
  | .rnd x _ => x = 15
  | .ldVxDt x => x = 15
  | .ldVxK x => x = 15
  | .ldVxMem x => x = 15
  | _ => False

/-- The instructions that read or write `I` (R24). -/
def usesI : Instr → Bool
  | .ldI _ | .addIVx _ | .ldFVx _ | .ldMemVx _ | .ldVxMem _ | .ldBVx _ | .drw _ _ _ => true
  | _ => false

/-- The instructions that reach the stack (R27). -/
def usesStack : Instr → Bool
  | .call _ | .ret => true
  | _ => false

/-- The instructions that reach the delay timer (R28). -/
def usesDt : Instr → Bool
  | .ldDtVx _ | .ldVxDt _ => true
  | _ => false

/-- The instruction that reaches the sound timer (R28). -/
def usesSt : Instr → Bool
  | .ldStVx _ => true
  | _ => false

/-- The instructions that reach the frame buffer (R29). -/
def usesFb : Instr → Bool
  | .cls | .drw _ _ _ => true
  | _ => false

/-- The instructions that read the keys (R30). -/
def usesKeys : Instr → Bool
  | .skp _ | .sknp _ | .ldVxK _ => true
  | _ => false

/-- The instructions that reach memory (R50). -/
def usesMem : Instr → Bool
  | .drw _ _ _ | .ldBVx _ | .ldMemVx _ | .ldVxMem _ => true
  | _ => false

/-- The instruction that reads the random byte (R112). -/
def usesRnd : Instr → Bool
  | .rnd _ _ => true
  | _ => false

/-- An instruction neither reads nor writes a part of the state: putting another value there before it is the same as
putting it there after it. -/
def Indifferent (i : Instr) (put : State → State) : Prop :=
  ∀ s, exec i (put s) = mapNext put (exec i s)

/-! ### Memory and runs -/

/-- The value of the latest write to address a among writes in program order, or what was there before (R60). -/
def latestWrite (before : Byte) (a : Nat) : List (Fin 4096 × Byte) → Byte
  | [] => before
  | (b, v) :: later => latestWrite (if b.val = a then v else before) a later

/-- The n cycles of a run. -/
def cycles (n : Nat) (s : State) : Host.Outcome State Fault Refusal := core.run n s

/-- Two states that differ in the sound timer at most. -/
def SameButSt (s s' : State) : Prop := s' = { s with st := s'.st }

/-- Two states that differ in stack slots above `SP` at most (R27). -/
def SameButStale (s s' : State) : Prop :=
  s' = { s with stack := s'.stack } ∧ ∀ k : Fin 16, k.val < s.sp.val → s'.stack[k] = s.stack[k]

/-- A timer after its tick phase: "a counter already at zero never goes negative" (60_exceptions.md R203). -/
def ticked (tick : Bool) (t : Byte) : Nat := if tick then t.toNat - 1 else t.toNat

end Sys2Proof.Claims

open Sys2Proof.Claims

/-! ### Encoding -/

/-- The words that 95_test_vectors.md T2 writes out, one per row of the table, decode to the instructions named there.
All patterns but those of the words 6xkk, 7xkk, 8xy4 and 0x0000 are the spec's from general knowledge (log 11). -/
def Obligations.SampleWordsDecode : Prop :=
  ∀ p ∈ sampleWords, decodeWord p.1 = .ok p.2

/-- Decoding an encoded instruction gives it back, with every operand at every value, and leaves the bytes after it. -/
def Obligations.DecodeOfEncodeIsTheInstruction : Prop :=
  ∀ (i : Instr) (rest : List Byte),
    decodeWord (encode i) = .ok i ∧ decodeBytes (encodeBytes i ++ rest) = .ok (i, rest)

/-- A recognised word is the encoding of the instruction it decodes to: no bit of it is dropped. -/
def Obligations.EncodeOfDecodeIsTheWord : Prop :=
  ∀ (w : Word) (i : Instr), decodeWord w = .ok i → encode i = w

/-- The two-level decoder is the single match against the 35 rows of R75: the rows are pairwise disjoint, a word that
selects a row decodes to that row's operation with the word's fields, and a word that selects none is unrecognised
(R75, R92). Patterns: log 11. -/
def Obligations.DecodeIsTheSingleMatchOfTheOpcodeMap : Prop :=
  opcodeMap.length = 35 ∧
  opcodeMap.Pairwise (fun r r' => ∀ w, ¬ (r.selects w ∧ r'.selects w)) ∧
  ∀ w : Word,
    (∀ r ∈ opcodeMap, r.selects w → decodeWord w = .ok (r.instr w)) ∧
    ((∀ r ∈ opcodeMap, ¬ r.selects w) → decodeWord w = .error (.unrecognised w))

/-- The unrecognised words are exactly those of the table of R77. The strictness is the spec's own decision (D6, D7;
log 12). -/
def Obligations.UnrecognisedWordsAreThoseListed : Prop :=
  ∀ w : Word, (∃ e, decodeWord w = .error e) ↔ listedUnrecognised w.toNat

/-! ### Reset and load -/

/-- Reset with any `FONT` and an image of at most 3584 bytes leaves every register, latch and byte of memory as R36
and R222 say (the model's own fields, the first cycle's free `tick` and `rnd` among them, and the stack slots, which
R36 leaves unspecified, are not spoken of); a longer image is refused; `State.reset` is the launch of no image with
the machine's own font, a constant without a body (log 4, a design choice). R36 marks the values of `pc` and `SP`, the
pixels and the latches as its own decisions (D9, D25, D26), and the refusal follows D28 (log 12). -/
def Obligations.LaunchGivesTheResetState : Prop :=
  State.launch Config.font [] = .next State.reset ∧ ∀ (font : Vector Byte Config.fontSize) (image : List Byte),
    (image.length ≤ 3584 → ∃ t, State.launch font image = .next t ∧
      (∀ k : Reg, t.v[k] = 0) ∧ t.i = 0x200 ∧ t.pc = 0x200 ∧ t.sp.val = 0 ∧ t.dt = 0 ∧ t.st = 0 ∧
      (∀ (r : Fin 32) (c : Fin 64), t.fb[r][c] = false) ∧ t.keys = 0 ∧
      t.run = true ∧ t.cause = .none ∧ t.info = 0 ∧
      (∀ a : Fin 80, t.mem.read a = font[a]) ∧
      (∀ a, 0x50 ≤ a → a < 0x200 → t.mem.read a = 0) ∧
      (∀ k (h : k < image.length), t.mem.read (0x200 + k) = image[k]) ∧
      (∀ a, 0x200 + image.length ≤ a → a ≤ 0xFFF → t.mem.read a = 0)) ∧
    (image.length > 3584 → State.launch font image = .refused (.imageTooLong image.length))

/-- The reset state and every launched state meet the invariants. The canonical form of memory is the model's own
representation (log 20, a design choice), the load is `State.launch` (log 13, a design choice), and the latches are
the spec's own decision (D9; log 12). -/
def Obligations.LaunchedStatesMeetTheInvariants : Prop :=
  LatchesAgree State.reset ∧ PcBounded State.reset ∧ MemoryCanonical State.reset ∧
  ∀ font image t, State.launch font image = .next t → LatchesAgree t ∧ PcBounded t ∧ MemoryCanonical t

/-! ### The cycle -/

/-- A stopped core does nothing, however many cycles are requested (R97, R200). The spec's own decision (D9; log 12).
-/
def Obligations.StoppedCoreDoesNothing : Prop :=
  ∀ s : State, s.run = false → step s = .next s ∧ ∀ n, cycles n s = .next s

/-- A cycle runs the decoded instruction: when the two bytes at an even `pc` of at most 0xFFE decode to i, the step is
exec of i at that state, and then the end of the cycle. Drawing the next cycle's keys, tick and random byte at the end
of a completed cycle, part of `finishCycle`, is the model's choice and no rule of the spec (log 1, a design choice).
-/
def Obligations.StepRunsTheDecodedInstruction : Prop :=
  ∀ (s t : State) (i : Instr), s.run = true → s.pc.toNat % 2 = 0 → s.pc.toNat ≤ 0xFFE →
    decodeBytes [s.mem.read s.pc.toNat, s.mem.read (s.pc.toNat + 1)] = .ok (i, []) →
    exec i s = .next t → step s = .next t.finishCycle

/-- Fetch reads the big-endian word at an even `pc` of at most 0xFFE, and the cycle raises `FETCH_FAULT(pc)` at any
other (R91). The fault is the spec's own decision (D13; log 12). -/
def Obligations.FetchReadsTheWordOrFaults : Prop :=
  ∀ s : State,
    (s.pc.toNat % 2 = 0 ∧ s.pc.toNat ≤ 0xFFE → ∃ w, fetch s = some w ∧
      w.toNat = (s.mem.read s.pc.toNat).toNat * 256 + (s.mem.read (s.pc.toNat + 1)).toNat) ∧
    (s.run = true → s.pc.toNat % 2 = 1 ∨ s.pc.toNat > 0xFFE →
      step s = .next (stopped s .fetchFault s.pc.toNat))

/-- A fetched word of the table of R77 stops the machine with `DECODE_ERROR(W)` and changes nothing else (R95). Which
words those are is the spec's own decision in part (D6, D7; log 12). -/
def Obligations.UnrecognisedWordRaisesDecodeError : Prop :=
  ∀ (s : State) (w : Word), s.run = true → fetch s = some w → listedUnrecognised w.toNat →
    step s = .next (stopped s .decodeError w.toNat)

/-- A cycle of a running core has a next state, in which it either still runs, with `CAUSE` and `INFO` as they were,
or has raised one fatal condition and is the state before the cycle with the three latches written: every fatal
condition is precise, with no timer tick (R202). Precision is the spec's own decision (D10; log 12). -/
def Obligations.CycleCompletesOrRaisesOneFatalCondition : Prop :=
  ∀ s : State, s.run = true → ∃ t, step s = .next t ∧
    ((t.run = true ∧ t.cause = s.cause ∧ t.info = s.info) ∨
      (t.cause ≠ .none ∧ t = { s with run := false, cause := t.cause, info := t.info }))

/-- Which fatal condition each instruction raises, when, and with which `INFO`: exactly as the table of R190 says for
the conditions raised at execute; every instruction otherwise completes with the latches as they were. All but `HALT`
are the spec's own decisions (D11, D14, D16, D17; log 12). -/
def Obligations.InstructionsRaiseOnlyTheirCondition : Prop :=
  ∀ (i : Instr) (s : State),
    (∀ c info, fatalOf s i = some (c, info) → exec i s = .next (stopped s c info)) ∧
    (fatalOf s i = none → ∃ t, exec i s = .next t ∧ t.run = s.run ∧ t.cause = s.cause ∧ t.info = s.info)

/-- The timer-tick phase: in a completed cycle both counters step on `tick`, after execute, and stop at zero; nothing
else but the next cycle's inputs changes in it; no counter moves in a cycle that raises a condition or while stopped
(R203). That both step on the same ticks is the spec's own decision (D23; log 12); `draws` is the model's (log 1). -/
def Obligations.TimersStepOnceInACompletedCycle : Prop :=
  (∀ (s u : State) (w : Word) (i : Instr), s.run = true → fetch s = some w → decodeWord w = .ok i →
    exec i s = .next u → u.run = true → ∃ t, step s = .next t ∧
      t.dt.toNat = ticked s.tick u.dt ∧ t.st.toNat = ticked s.tick u.st ∧
      t = { u with dt := t.dt, st := t.st, keys := t.keys, tick := t.tick, rnd := t.rnd, draws := t.draws }) ∧
  (∀ s t : State, step s = .next t → t.run = false → t.dt = s.dt ∧ t.st = s.st)

/-! ### Arithmetic and register instructions (41_arithmetic_register.md) -/

/-- `LD Vx,kk` and `ADD Vx,kk` (R101, R102): the words, the results, and that nothing but V[x] and `pc` changes; no flag. -/
def Obligations.LiteralFormsWriteOneRegister : Prop :=
  ∀ (s : State) (x : Reg) (kk : Byte),
    (decodeWord (numXK 6 x kk.toNat) = .ok (.ldImm x kk) ∧
      ∃ t, exec (.ldImm x kk) s = .next t ∧ t.v[x] = kk ∧ OnlyRegisters (· = x) s t) ∧
    (decodeWord (numXK 7 x kk.toNat) = .ok (.addImm x kk) ∧
      ∃ t, exec (.addImm x kk) s = .next t ∧ t.v[x].toNat = (s.v[x].toNat + kk.toNat) % 256 ∧
        OnlyRegisters (· = x) s t)

/-- `LD Vx,Vy`, `OR`, `AND`, `XOR` (R103 to R106): the words, the results bit by bit, and that nothing but V[x] and
`pc` changes; no flag. The patterns of the words are the spec's from general knowledge (R75; log 11). -/
def Obligations.MoveAndLogicWriteOneRegister : Prop :=
  ∀ (s : State) (x y : Reg),
    (decodeWord (numXY 8 x y 0) = .ok (.ldReg x y) ∧
      ∃ t, exec (.ldReg x y) s = .next t ∧ t.v[x] = s.v[y] ∧ OnlyRegisters (· = x) s t) ∧
    (decodeWord (numXY 8 x y 1) = .ok (.orReg x y) ∧
      ∃ t, exec (.orReg x y) s = .next t ∧ OnlyRegisters (· = x) s t ∧
        ∀ b, t.v[x].getLsbD b = (s.v[x].getLsbD b || s.v[y].getLsbD b)) ∧
    (decodeWord (numXY 8 x y 2) = .ok (.andReg x y) ∧
      ∃ t, exec (.andReg x y) s = .next t ∧ OnlyRegisters (· = x) s t ∧
        ∀ b, t.v[x].getLsbD b = (s.v[x].getLsbD b && s.v[y].getLsbD b)) ∧
    (decodeWord (numXY 8 x y 3) = .ok (.xorReg x y) ∧
      ∃ t, exec (.xorReg x y) s = .next t ∧ OnlyRegisters (· = x) s t ∧
        ∀ b, t.v[x].getLsbD b = (s.v[x].getLsbD b ^^ s.v[y].getLsbD b))

/-- `ADD Vx,Vy` (R107): V[x] gets the sum modulo 256 and VF is 1 iff the sum exceeds 255, both from the values before;
with x = 15 the last write of R100 stands, under either `VF_DEST_ORDER`. The clause for x = 15 is the effect of the
order that the spec leaves open (R100, D22), in the model a constant without a body (log 5, a design choice). -/
def Obligations.AddWritesSumAndCarry : Prop :=
  ∀ (s : State) (x y : Reg), decodeWord (numXY 8 x y 4) = .ok (.addReg x y) ∧
    ∃ t, exec (.addReg x y) s = .next t ∧ OnlyRegisters (fun k => k = x ∨ k = 15) s t ∧
      ResultAndFlag x ((s.v[x].toNat + s.v[y].toNat) % 256)
        (if s.v[x].toNat + s.v[y].toNat > 255 then 1 else 0) t

/-- `SUB Vx,Vy` and `SUBN Vx,Vy` (R108, R110): the difference modulo 256, and VF is 1 iff the minuend is strictly
greater; with x = 15 the last write of R100 stands, under either `VF_DEST_ORDER`. The clauses for x = 15 are the
effect of the order that the spec leaves open (R100, D22), in the model a constant without a body (log 5, a design
choice). The patterns of the words are the spec's from general knowledge (R75; log 11). -/
def Obligations.SubtractsWriteDifferenceAndNotBorrow : Prop :=
  ∀ (s : State) (x y : Reg),
    (decodeWord (numXY 8 x y 5) = .ok (.subReg x y) ∧
      ∃ t, exec (.subReg x y) s = .next t ∧ OnlyRegisters (fun k => k = x ∨ k = 15) s t ∧
        ResultAndFlag x (((s.v[x].toNat : Int) - s.v[y].toNat) % 256).toNat
          (if s.v[x].toNat > s.v[y].toNat then 1 else 0) t) ∧
    (decodeWord (numXY 8 x y 7) = .ok (.subnReg x y) ∧
      ∃ t, exec (.subnReg x y) s = .next t ∧ OnlyRegisters (fun k => k = x ∨ k = 15) s t ∧
        ResultAndFlag x (((s.v[y].toNat : Int) - s.v[x].toNat) % 256).toNat
          (if s.v[y].toNat > s.v[x].toNat then 1 else 0) t)

/-- `SHR Vx,Vy` and `SHL Vx,Vy` (R109, R111): the value shifted is V[y]; VF gets the bit shifted out, and the result
is written last, so it survives when x = 15. The patterns of the words are the spec's from general knowledge (R75; log
11). -/
def Obligations.ShiftsComeFromVyAndWriteTheFlagFirst : Prop :=
  ∀ (s : State) (x y : Reg),
    (decodeWord (numXY 8 x y 6) = .ok (.shrReg x y) ∧
      ∃ t, exec (.shrReg x y) s = .next t ∧ OnlyRegisters (fun k => k = x ∨ k = 15) s t ∧
        t.v[x].toNat = s.v[y].toNat / 2 ∧ (x ≠ 15 → t.v[15].toNat = s.v[y].toNat % 2)) ∧
    (decodeWord (numXY 8 x y 0xE) = .ok (.shlReg x y) ∧
      ∃ t, exec (.shlReg x y) s = .next t ∧ OnlyRegisters (fun k => k = x ∨ k = 15) s t ∧
        t.v[x].toNat = s.v[y].toNat * 2 % 256 ∧ (x ≠ 15 → t.v[15].toNat = s.v[y].toNat / 128))

/-- `RND Vx,kk` (R112), for every random byte: V[x] gets it masked, and no bit that kk lacks; no other instruction
reads it. The pattern of the word is the spec's from general knowledge (R75; log 11). -/
def Obligations.RandomByteIsMaskedAndReachesNothingElse : Prop :=
  (∀ (s : State) (x : Reg) (kk : Byte), decodeWord (numXK 0xC x kk.toNat) = .ok (.rnd x kk) ∧
    ∃ t, exec (.rnd x kk) s = .next t ∧ OnlyRegisters (· = x) s t ∧
      ∀ b, t.v[x].getLsbD b = (s.rnd.getLsbD b && kk.getLsbD b)) ∧
  (∀ (i : Instr) (b : Byte), usesRnd i = false → Indifferent i (fun s => { s with rnd := b }))

/-! ### Control flow (40_decode_dispatch.md R94, 42_control_flow.md) -/

/-- `HALT` (R94): always raises `HALT(0)`; a cycle that fetches the word 0x0000, at any `pc`, only stops the machine,
without a timer tick. That the word halts at any `pc` is the spec's own decision (D8; log 12). -/
def Obligations.HaltStopsAtAnyPc : Prop :=
  ∀ s : State, decodeWord 0x0000 = .ok .halt ∧ exec .halt s = .next (stopped s .halt 0) ∧
    (s.run = true → s.pc.toNat % 2 = 0 → s.pc.toNat ≤ 0xFFE →
      s.mem.read s.pc.toNat = 0 → s.mem.read (s.pc.toNat + 1) = 0 → step s = .next (stopped s .halt 0))

/-- `JP nnn` and `JP V0,nnn` (R121, R128): `pc` gets the target as computed, not reduced modulo 4096, and nothing else
changes; a bad target completes here and raises `FETCH_FAULT` in the next cycle. V0 as the index and the fault are the
spec's own (D5, log 11; D13, log 12). The patterns of the words are the spec's from general knowledge (R75; log 11).
-/
def Obligations.JumpsLoadTheTargetUnchecked : Prop :=
  ∀ (s : State) (nnn : Lit12),
    (decodeWord (numA 1 nnn) = .ok (.jp nnn) ∧ ∃ t, exec (.jp nnn) s = .next t ∧
      t = { s with pc := t.pc } ∧ t.pc.toNat = nnn.toNat ∧
      (s.run = true → nnn.toNat % 2 = 1 ∨ nnn.toNat = 0xFFF → step t = .next (stopped t .fetchFault nnn.toNat))) ∧
    (decodeWord (numA 0xB nnn) = .ok (.jpV0 nnn) ∧ ∃ t, exec (.jpV0 nnn) s = .next t ∧
      t = { s with pc := t.pc } ∧ t.pc.toNat = nnn.toNat + s.v[0].toNat ∧
      (s.run = true → t.pc.toNat % 2 = 1 ∨ t.pc.toNat > 0xFFE →
        step t = .next (stopped t .fetchFault t.pc.toNat)))

/-- `CALL nnn` (R122): with a free slot, one frame more, its slot holding the address of the `CALL` itself, and
nothing else; with 16 live frames, `STACK_FAULT(16)` and nothing changes. The fault is the spec's own decision (D11;
log 12). The pattern of the word is the spec's from general knowledge (R75; log 11). -/
def Obligations.CallPushesItsOwnAddress : Prop :=
  ∀ (s : State) (nnn : Lit12), decodeWord (numA 2 nnn) = .ok (.call nnn) ∧
    (s.sp.val < 16 → ∃ t, exec (.call nnn) s = .next t ∧
      t = { s with sp := t.sp, stack := t.stack, pc := t.pc } ∧
      t.sp.val = s.sp.val + 1 ∧ t.pc.toNat = nnn.toNat ∧
      ∀ k : Fin 16, t.stack[k] = if k.val = s.sp.val then s.pc else s.stack[k]) ∧
    (s.sp.val = 16 → exec (.call nnn) s = .next (stopped s .stackFault 16))

/-- `RET` (R123): resumes at the top slot's address plus 2 with one frame fewer, and nothing else; with no live frame,
`STACK_FAULT(0)` and nothing changes. The fault is the spec's own decision (D11; log 12). The pattern of the word is
the spec's from general knowledge (R75; log 11). -/
def Obligations.ReturnPopsTheCallSite : Prop :=
  ∀ s : State, decodeWord 0x00EE = .ok .ret ∧
    (∀ k : Fin 16, s.sp.val = k.val + 1 →
      exec .ret s = .next { s with sp := k.castSucc, pc := s.stack[k] + 2 }) ∧
    (s.sp.val = 0 → exec .ret s = .next (stopped s .stackFault 0))

/-- A return with the stack as the call left it resumes after the call, whatever ran in between, with the stack pointer
at its value before the call. -/
def Obligations.ReturnAfterCallResumesAfterTheCall : Prop :=
  ∀ (s : State) (nnn : Lit12), s.sp.val < 16 → ∃ t, exec (.call nnn) s = .next t ∧
    ∀ u : State, u.sp = t.sp → u.stack = t.stack →
      exec .ret u = .next { u with sp := s.sp, pc := s.pc + 2 }

/-- The four skips (R124 to R127): `pc` advances by 4 when the condition holds, else by 2, and nothing else changes.
The patterns of the words are the spec's from general knowledge (R75; log 11). -/
def Obligations.SkipsAdvanceByFourOrTwo : Prop :=
  ∀ (s : State) (x y : Reg) (kk : Byte),
    (decodeWord (numXK 3 x kk.toNat) = .ok (.seImm x kk) ∧
      exec (.seImm x kk) s = .next { s with pc := if s.v[x] = kk then s.pc + 4 else s.pc + 2 }) ∧
    (decodeWord (numXK 4 x kk.toNat) = .ok (.sneImm x kk) ∧
      exec (.sneImm x kk) s = .next { s with pc := if s.v[x] ≠ kk then s.pc + 4 else s.pc + 2 }) ∧
    (decodeWord (numXY 5 x y 0) = .ok (.seReg x y) ∧
      exec (.seReg x y) s = .next { s with pc := if s.v[x] = s.v[y] then s.pc + 4 else s.pc + 2 }) ∧
    (decodeWord (numXY 9 x y 0) = .ok (.sneReg x y) ∧
      exec (.sneReg x y) s = .next { s with pc := if s.v[x] ≠ s.v[y] then s.pc + 4 else s.pc + 2 })

/-! ### Drawing (43_draw.md) -/

/-- `CLS` (R141): every pixel is off, `pc` advances by 2, and nothing else changes, VF included. The pattern of the
word is the spec's from general knowledge (R75; log 11). -/
def Obligations.ClearScreenTurnsEveryPixelOff : Prop :=
  ∀ s : State, decodeWord 0x00E0 = .ok .cls ∧ ∃ t, exec .cls s = .next t ∧
    (∀ (r : Fin 32) (c : Fin 64), t.fb[r][c] = false) ∧ t = { s with fb := t.fb, pc := s.pc + 2 }

/-- `DRW Vx,Vy,n` with its range inside memory (R142 to R145): every pixel is XORed with the sprite's bit on it,
clipped and never wrapped; VF is 1 iff some pixel went from on to off, computed over the whole sprite, and always
written; the coordinates are the values before; `I`, memory and every other register are unchanged. With a range that
passes 0xFFF it raises `MEM_FAULT` and draws nothing (R146). The fault (D14), n = 0 (D18), the clipped columns (D19)
and the reading order (D21) are the spec's own decisions (log 12); bit 7 as the leftmost (D20) and the pattern of the
word are its general knowledge (log 11). -/
def Obligations.DrawXorsTheClippedSpriteAndReportsCollision : Prop :=
  ∀ (s : State) (x y : Reg) (n : Nibble), decodeWord (numXY 0xD x y n.toNat) = .ok (.drw x y n) ∧
    (InRange s n.toNat → ∃ t, exec (.drw x y n) s = .next t ∧
      (∀ (r : Fin 32) (c : Fin 64), t.fb[r][c] = (s.fb[r][c] ^^ spriteCovers s x y n r c)) ∧
      ((∃ (r : Fin 32) (c : Fin 64), spriteCovers s x y n r c = true ∧ s.fb[r][c] = true) → t.v[15] = 1) ∧
      (¬ (∃ (r : Fin 32) (c : Fin 64), spriteCovers s x y n r c = true ∧ s.fb[r][c] = true) → t.v[15] = 0) ∧
      t = { s with fb := t.fb, v := t.v, pc := s.pc + 2 } ∧ ∀ k : Reg, k ≠ 15 → t.v[k] = s.v[k]) ∧
    (¬ InRange s n.toNat → exec (.drw x y n) s = .next (memFaulted s))

/-- Two draws of the same sprite at the same place (R147): every pixel is restored; if the first draw lit pixels and
none went off, the second reports a collision; where every pixel under a set sprite bit was off (a cleared screen, a
region off before), the first reports none; if the first draw changed no pixel, neither reports one. R147 marks the
conditions as derived by the spec from R142. The range condition (D14) and the clipped columns (D19) are the spec's
own decisions (log 12), and bit 7 as the leftmost (D20) is its general knowledge (log 11). -/
def Obligations.IdenticalDrawRestoresEveryPixel : Prop :=
  ∀ (s t : State) (x y : Reg) (n : Nibble), InRange s n.toNat → exec (.drw x y n) s = .next t →
    t.v[x] = s.v[x] → t.v[y] = s.v[y] → ∃ u, exec (.drw x y n) t = .next u ∧
      u.fb = s.fb ∧
      (t.v[15] = 0 → t.fb ≠ s.fb → u.v[15] = 1) ∧
      ((∀ (r : Fin 32) (c : Fin 64), spriteCovers s x y n r c = true → s.fb[r][c] = false) → t.v[15] = 0) ∧
      (t.fb = s.fb → t.v[15] = 0 ∧ u.v[15] = 0)

/-! ### Timers, keys, font, transfers, address register (44_timer_input_memory.md) -/

/-- `LD Vx,DT`, `LD DT,Vx`, `LD ST,Vx` (R161, R162, R163): the copies, and nothing else. That a cycle executes before
its tick is `TimersStepOnceInACompletedCycle`. The patterns of the words are the spec's from general knowledge (R75;
log 11). -/
def Obligations.TimerCopiesMoveOneByte : Prop :=
  ∀ (s : State) (x : Reg),
    (decodeWord (numXK 0xF x 0x07) = .ok (.ldVxDt x) ∧
      ∃ t, exec (.ldVxDt x) s = .next t ∧ t.v[x] = s.dt ∧ OnlyRegisters (· = x) s t) ∧
    (decodeWord (numXK 0xF x 0x15) = .ok (.ldDtVx x) ∧
      exec (.ldDtVx x) s = .next { s with dt := s.v[x], pc := s.pc + 2 }) ∧
    (decodeWord (numXK 0xF x 0x18) = .ok (.ldStVx x) ∧
      exec (.ldStVx x) s = .next { s with st := s.v[x], pc := s.pc + 2 })

/-- `SKP Vx` and `SKNP Vx` (R164, R165): test the key numbered V[x] of this cycle's latch; above 15, `OPERAND_FAULT`
with the value unmasked. The fault is the spec's own decision (D16; log 12). The patterns of the words are the spec's
from general knowledge (R75; log 11). -/
def Obligations.KeySkipsTestTheKeyNumberedVx : Prop :=
  ∀ (s : State) (x : Reg),
    decodeWord (numXK 0xE x 0x9E) = .ok (.skp x) ∧ decodeWord (numXK 0xE x 0xA1) = .ok (.sknp x) ∧
    (s.v[x].toNat ≤ 15 →
      exec (.skp x) s = .next { s with
        pc := if s.keys.getLsbD s.v[x].toNat = true then s.pc + 4 else s.pc + 2 } ∧
      exec (.sknp x) s = .next { s with
        pc := if s.keys.getLsbD s.v[x].toNat = false then s.pc + 4 else s.pc + 2 }) ∧
    (s.v[x].toNat > 15 →
      exec (.skp x) s = .next (stopped s .operandFault s.v[x].toNat) ∧
      exec (.sknp x) s = .next (stopped s .operandFault s.v[x].toNat))

/-- `LD Vx,K` (R166): with a key down, V[x] gets the least one and `pc` advances by 2; with none, the instruction
changes nothing, and the cycle still completes, timer tick included. The pattern of the word is the spec's from
general knowledge (R75; log 11). -/
def Obligations.KeyWaitTakesTheLeastKeyOrWaits : Prop :=
  ∀ (s : State) (x : Reg), decodeWord (numXK 0xF x 0x0A) = .ok (.ldVxK x) ∧
    (s.keys = 0 → exec (.ldVxK x) s = .next s) ∧
    (s.keys ≠ 0 → ∃ t, exec (.ldVxK x) s = .next t ∧ OnlyRegisters (· = x) s t ∧
      s.keys.getLsbD t.v[x].toNat = true ∧ ∀ j < t.v[x].toNat, s.keys.getLsbD j = false) ∧
    (s.run = true → fetch s = some (numXK 0xF x 0x0A) → s.keys = 0 → ∃ t, step s = .next t ∧
      t.run = true ∧ t.pc = s.pc ∧ t.v = s.v ∧ t.dt.toNat = ticked s.tick s.dt ∧ t.st.toNat = ticked s.tick s.st)

/-- `LD F,Vx` (R167): `I` gets 5 times the digit in V[x], and nothing else changes; above 15, `OPERAND_FAULT`. The
fault is the spec's own decision (D17; log 12). The pattern of the word is the spec's from general knowledge (R75; log
11). -/
def Obligations.FontAddressIsFiveTimesTheDigit : Prop :=
  ∀ (s : State) (x : Reg), decodeWord (numXK 0xF x 0x29) = .ok (.ldFVx x) ∧
    (s.v[x].toNat ≤ 15 → ∃ t, exec (.ldFVx x) s = .next t ∧ t.i.toNat = 5 * s.v[x].toNat ∧
      t = { s with i := t.i, pc := s.pc + 2 }) ∧
    (s.v[x].toNat > 15 → exec (.ldFVx x) s = .next (stopped s .operandFault s.v[x].toNat))

/-- `LD B,Vx` (R168): hundreds, tens and ones of V[x] at `I`, `I + 1`, `I + 2`; every other byte of memory, `I` and
every register are unchanged; when `I + 2` passes 0xFFF, `MEM_FAULT` and no byte is written. The fault is the spec's
own decision (D14; log 12). The pattern of the word is the spec's from general knowledge (R75; log 11). -/
def Obligations.BcdStoresThreeDigits : Prop :=
  ∀ (s : State) (x : Reg), decodeWord (numXK 0xF x 0x33) = .ok (.ldBVx x) ∧
    (s.i.toNat + 2 ≤ 0xFFF → ∃ t, exec (.ldBVx x) s = .next t ∧
      (t.mem.read s.i.toNat).toNat = s.v[x].toNat / 100 ∧
      (t.mem.read (s.i.toNat + 1)).toNat = s.v[x].toNat / 10 % 10 ∧
      (t.mem.read (s.i.toNat + 2)).toNat = s.v[x].toNat % 10 ∧
      (∀ a, a < s.i.toNat ∨ s.i.toNat + 2 < a → t.mem.read a = s.mem.read a) ∧
      t = { s with mem := t.mem, pc := s.pc + 2 }) ∧
    (s.i.toNat + 2 > 0xFFF → exec (.ldBVx x) s = .next (memFaulted s))

/-- `LD [I],Vx` (R169): V[k] at `I + k` for k = 0 to x, every other byte unchanged; `I` advances by x + 1; when `I +
x` passes 0xFFF, `MEM_FAULT`, no byte is written and `I` is unchanged. The fault and the wrap at 65536 are the spec's
own decisions (D14, D15; log 12). The pattern of the word is the spec's from general knowledge (R75; log 11). -/
def Obligations.BlockStoreWritesVZeroToVx : Prop :=
  ∀ (s : State) (x : Reg), decodeWord (numXK 0xF x 0x55) = .ok (.ldMemVx x) ∧
    (s.i.toNat + x.val ≤ 0xFFF → ∃ t, exec (.ldMemVx x) s = .next t ∧
      (∀ k : Reg, k ≤ x → t.mem.read (s.i.toNat + k.val) = s.v[k]) ∧
      (∀ a, a < s.i.toNat ∨ s.i.toNat + x.val < a → t.mem.read a = s.mem.read a) ∧
      t.i.toNat = (s.i.toNat + x.val + 1) % 65536 ∧
      t = { s with mem := t.mem, i := t.i, pc := s.pc + 2 }) ∧
    (s.i.toNat + x.val > 0xFFF → exec (.ldMemVx x) s = .next (memFaulted s))

/-- `LD Vx,[I]` (R170): V[k] gets the byte at `I + k` for k = 0 to x, registers above x and memory are unchanged; `I`
advances by x + 1; when `I + x` passes 0xFFF, `MEM_FAULT`, no register is written and `I` is unchanged. The fault and
the wrap at 65536 are the spec's own decisions (D14, D15; log 12). The pattern of the word is the spec's from general
knowledge (R75; log 11). -/
def Obligations.BlockLoadReadsVZeroToVx : Prop :=
  ∀ (s : State) (x : Reg), decodeWord (numXK 0xF x 0x65) = .ok (.ldVxMem x) ∧
    (s.i.toNat + x.val ≤ 0xFFF → ∃ t, exec (.ldVxMem x) s = .next t ∧
      (∀ k : Reg, k ≤ x → t.v[k] = s.mem.read (s.i.toNat + k.val)) ∧
      (∀ k : Reg, x < k → t.v[k] = s.v[k]) ∧
      t.i.toNat = (s.i.toNat + x.val + 1) % 65536 ∧
      t = { s with v := t.v, i := t.i, pc := s.pc + 2 }) ∧
    (s.i.toNat + x.val > 0xFFF → exec (.ldVxMem x) s = .next (memFaulted s))

/-- `LD I,nnn` and `ADD I,Vx` (R171, R172): `I` gets the literal, or the sum modulo 65536, not reduced modulo 4096; VF
and all else are unchanged. Both instructions are the spec's from general knowledge (D3; log 11), and the wrap and the
untouched VF are its own decisions (D15, D33; log 12). -/
def Obligations.AddressRegisterIsSetOrAddedTo : Prop :=
  ∀ (s : State) (x : Reg) (nnn : Lit12),
    (decodeWord (numA 0xA nnn) = .ok (.ldI nnn) ∧ ∃ t, exec (.ldI nnn) s = .next t ∧
      t.i.toNat = nnn.toNat ∧ t = { s with i := t.i, pc := s.pc + 2 }) ∧
    (decodeWord (numXK 0xF x 0x1E) = .ok (.addIVx x) ∧ ∃ t, exec (.addIVx x) s = .next t ∧
      t.i.toNat = (s.i.toNat + s.v[x].toNat) % 65536 ∧ t = { s with i := t.i, pc := s.pc + 2 })

/-! ### Memory -/

/-- A read returns the value of the latest write to that byte in program order, or what was there before (R60). -/
def Obligations.ReadReturnsTheLatestWrite : Prop :=
  ∀ (m : Memory) (writes : List (Fin 4096 × Byte)) (a : Nat),
    (writes.foldl (fun m' w => m'.write w.1.val w.2) m).read a = latestWrite (m.read a) a writes

/-- Canonical memories with the same font that read alike everywhere are equal: the representation hides nothing. The
representation is the model's choice (log 20). -/
def Obligations.CanonicalMemoriesThatReadAlikeAreEqual : Prop :=
  ∀ m m' : Memory, m.wf = true → m'.wf = true → m.font = m'.font → (∀ a, m.read a = m'.read a) → m = m'

/-- A program may write an instruction and fetch it in the next cycle (R63): two bytes stored by `LD [I],Vx` at an
even address are the word fetched there. The spec's own decision (D34; log 12). -/
def Obligations.StoredBytesAreFetched : Prop :=
  ∀ (s : State) (x k : Reg) (h : k.val + 1 < 16), k.val + 1 ≤ x.val → s.i.toNat + x.val ≤ 0xFFF →
    (s.i.toNat + k.val) % 2 = 0 → ∃ t w, exec (.ldMemVx x) s = .next t ∧
      fetch { t with pc := BitVec.ofNat 16 (s.i.toNat + k.val) } = some w ∧
      w.toNat = s.v[k].toNat * 256 + (s.v[k.val + 1]).toNat

/-! ### The whole machine -/

/-- Each part of the state is reached only by the instructions the spec lists for it: `I` (R24), the stack (R27), the
timers (R28), the frame buffer (R29), the keys (R30), memory (R50); and no instruction reads or writes `tick` or the
model's counter. The counter `draws` is the model's (log 1). -/
def Obligations.EachPartOfTheStateIsReachedOnlyByItsInstructions : Prop :=
  ∀ i : Instr,
    (usesI i = false → ∀ w, Indifferent i (fun s => { s with i := w })) ∧
    (usesStack i = false → ∀ n k, Indifferent i (fun s => { s with sp := n, stack := k })) ∧
    (usesDt i = false → ∀ b, Indifferent i (fun s => { s with dt := b })) ∧
    (usesSt i = false → ∀ b, Indifferent i (fun s => { s with st := b })) ∧
    (usesFb i = false → ∀ f, Indifferent i (fun s => { s with fb := f })) ∧
    (usesKeys i = false → ∀ w, Indifferent i (fun s => { s with keys := w })) ∧
    (usesMem i = false → ∀ m, Indifferent i (fun s => { s with mem := m })) ∧
    (∀ b n, Indifferent i (fun s => { s with tick := b, draws := n }))

/-- The keys are the host's: no instruction writes them (R30). -/
def Obligations.NoInstructionWritesTheKeys : Prop :=
  ∀ (i : Instr) (s t : State), exec i s = .next t → t.keys = s.keys

/-- VF is written as a flag by exactly the six instructions of R22, each completing with 0 or 1 there unless VF is also
its destination, and by others only as their named destination. -/
def Obligations.VfIsWrittenOnlyByTheSixOrByName : Prop :=
  ∀ (i : Instr) (s t : State), s.run = true → exec i s = .next t → t.run = true →
    (flagWriter i = none → ¬ namesVf i → t.v[15] = s.v[15]) ∧
    (∀ d, flagWriter i = some d → d ≠ some 15 → t.v[15] = 0 ∨ t.v[15] = 1)

/-- How every instruction sets the next `pc` when it completes (R26, R96), and that it leaves it when it raises. V0 as
the index of `JP V0,nnn` is D5 (log 11), and that `pc` stays in a fatal condition D10 (log 12). -/
def Obligations.NextPcIsAsTabled : Prop :=
  ∀ (i : Instr) (s t : State), s.run = true → exec i s = .next t →
    (t.run = true → NextPc s t i) ∧ (t.run = false → t.pc = s.pc)

/-- An invariant of every cycle: `CAUSE` and `INFO` are 0 while `RUN` = 1, and a stopped machine has a cause (R32).
The latches are the spec's own decision (D9; log 12). -/
def Obligations.CycleKeepsTheLatchesInAgreement : Prop :=
  ∀ s t : State, LatchesAgree s → step s = .next t → LatchesAgree t

/-- An invariant of every cycle: `pc` never exceeds 0x10FE, and every live stack slot holds the even address of a `CALL`
that was fetched (R26). -/
def Obligations.CycleKeepsPcBounded : Prop :=
  ∀ s t : State, PcBounded s → step s = .next t → PcBounded t

/-- An invariant of every cycle: memory stays in its canonical form, and `FONT` is a constant. The representation is
the model's choice (log 20). -/
def Obligations.CycleKeepsMemoryCanonical : Prop :=
  ∀ s t : State, MemoryCanonical s → step s = .next t → MemoryCanonical t ∧ t.mem.font = s.mem.font

/-- The sound timer influences nothing (R163): runs of any length from two states that differ in it at most give
states that differ in it at most; and the one instruction that reaches it copies V[x] into it. That no instruction
reads it is the spec's own decision (D4; log 11). The pattern of the word is the spec's from general knowledge (R75;
log 11). -/
def Obligations.SoundTimerInfluencesNothing : Prop :=
  (∀ (s : State) (x : Reg), decodeWord (numXK 0xF x 0x18) = .ok (.ldStVx x) ∧
    exec (.ldStVx x) s = .next { s with st := s.v[x], pc := s.pc + 2 }) ∧
  ∀ (n : Nat) (s s' : State), SameButSt s s' →
    ∃ t t', cycles n s = .next t ∧ cycles n s' = .next t' ∧ SameButSt t t'

/-- A stack slot above `SP` is not observable (R27): runs of any length from two states that differ in such slots at most
give states that differ in such slots at most. -/
def Obligations.StaleStackSlotsAreNotObservable : Prop :=
  ∀ (n : Nat) (s s' : State), SameButStale s s' →
    ∃ t t', cycles n s = .next t ∧ cycles n s' = .next t' ∧ SameButStale t t'

/-- Every run of an image launched with any `FONT`, of any number of cycles, whatever keys, tick and random byte the
first cycle has (the later ones are drawn freely), has a state at its end, and that state meets the invariants (R10,
R26, R32). The canonical form of memory (log 20), the inputs held in the state and drawn for each later cycle (log 1),
those of the first cycle (logs 2 and 3), the font as an argument (log 4) and the load (log 13) are the model's design
choices; the latches are the spec's own decision (D9; log 12). -/
def Obligations.EveryRunOfAnImageMeetsTheInvariants : Prop :=
  ∀ (font : Vector Byte Config.fontSize) (image : List Byte) (s : State) (keys : Word) (tick : Bool) (rnd : Byte)
    (n : Nat), State.launch font image = .next s →
    ∃ t, cycles n (s.withInputs keys tick rnd) = .next t ∧ LatchesAgree t ∧ PcBounded t ∧ MemoryCanonical t

/-- The word the host places is the word the next cycle fetches, from every state; where the state could fetch already,
nothing but the two bytes at `pc` changes (notes/assumptions/13.md: the model's own convention). -/
def Obligations.PlacedWordIsFetchedNext : Prop :=
  ∀ (s : State) (w : Word), (s.withFetchWord 16 w.toNat).run = true ∧
    fetch (s.withFetchWord 16 w.toNat) = some w ∧
    (s.run = true → s.pc.toNat % 2 = 0 → s.pc.toNat ≤ 0xFFE →
      s.withFetchWord 16 w.toNat = { s with mem := (s.withFetchWord 16 w.toNat).mem } ∧
      ∀ a, a ≠ s.pc.toNat → a ≠ s.pc.toNat + 1 → (s.withFetchWord 16 w.toNat).mem.read a = s.mem.read a)
end

