-- ==== Sys2Proof/Laws/Memory.lean ====
section
/-! SUPPORT. What memory operations do: a read after a write, the frame of a write, and that every operation keeps the
canonical form and the font. -/

namespace Sys2Proof.Machine

@[simp] theorem cellAt_putCell (a b : Nat) (v : Byte) (cells : List Host.Cell) :
    cellAt (putCell a v cells) b = if b = a then some v else cellAt cells b := by
  induction cells with
  | nil => simp [putCell, cellAt]
  | cons c rest ih =>
    obtain ⟨k, w⟩ := c
    simp only [putCell]
    split
    · simp [cellAt]
    · split
      · next h => subst h; simp only [cellAt]; split <;> rfl
      · simp only [cellAt, ih]
        by_cases h : b = k
        · simp [h]; omega
        · simp [h]

@[simp] theorem cellAt_dropCell (a b : Nat) (cells : List Host.Cell) :
    cellAt (dropCell a cells) b = if b = a then none else cellAt cells b := by
  induction cells with
  | nil => simp [dropCell, cellAt]
  | cons c rest ih =>
    obtain ⟨k, w⟩ := c
    simp only [dropCell] at ih
    by_cases h : k = a
    · subst h
      simp only [dropCell, List.filter_cons, bne_self_eq_false, Bool.false_eq_true, if_false, ih, cellAt]
      split <;> rfl
    · have : (k != a) = true := by simpa using h
      simp only [dropCell, List.filter_cons, this, if_true, cellAt, ih]
      by_cases hb : b = k
      · simp [hb, h]
      · simp [hb]

@[simp] theorem Memory.write_font (m : Memory) (a : Nat) (v : Byte) : (m.write a v).font = m.font := by
  unfold Memory.write; split <;> rfl

@[simp] theorem Memory.write_background (m : Memory) (a b : Nat) (v : Byte) :
    (m.write a v).background b = m.background b := by
  simp [Memory.background]

/-- A read after a write: the value written at its address, what was there before elsewhere (R58, R60). -/
theorem Memory.read_write (m : Memory) (a b : Nat) (v : Byte) (ha : a < Config.memSize) :
    (m.write a v).read b = if b = a then v else m.read b := by
  have hbg : ∀ cells, Memory.background { m with cells := cells } b = m.background b := fun _ => rfl
  simp only [Memory.write, ha, if_true, Memory.read, hbg]
  by_cases hv : v = m.background a
  · simp only [hv, if_true, cellAt_dropCell]
    by_cases hb : b = a <;> simp [hb]
  · simp only [hv, if_false, cellAt_putCell]
    by_cases hb : b = a <;> simp [hb]

@[simp] theorem Memory.writeBytes_font (m : Memory) (a : Nat) (vs : List Byte) :
    (m.writeBytes a vs).font = m.font := by
  induction vs generalizing m a with
  | nil => rfl
  | cons v vs ih => simp [Memory.writeBytes, ih]

/-- Reads after a block of writes inside memory: byte k of the block at a + k, what was there before elsewhere. -/
theorem Memory.read_writeBytes (m : Memory) (a b : Nat) (vs : List Byte) (ha : a + vs.length ≤ Config.memSize) :
    (m.writeBytes a vs).read b = if a ≤ b then (vs[b - a]?).getD (m.read b) else m.read b := by
  induction vs generalizing m a with
  | nil => simp [Memory.writeBytes]
  | cons v vs ih =>
    simp only [List.length_cons] at ha
    rw [Memory.writeBytes, ih _ _ (by omega), Memory.read_write _ _ _ _ (by omega)]
    by_cases h1 : a + 1 ≤ b
    · have hne : b ≠ a := by omega
      have hsub : b - a = (b - (a + 1)) + 1 := by omega
      simp [h1, hne, hsub, show a ≤ b by omega]
    · by_cases h2 : b = a
      · subst h2; simp
      · simp [h1, h2, show ¬ a ≤ b by omega]

/-! ### The canonical form -/

theorem risingFrom_mono {lo hi : Nat} {cells : List Host.Cell} (h : lo ≤ hi) (hc : risingFrom hi cells = true) :
    risingFrom lo cells = true := by
  cases cells with
  | nil => rfl
  | cons c rest =>
    obtain ⟨k, w⟩ := c
    simp only [risingFrom, Bool.and_eq_true, decide_eq_true_eq] at hc ⊢
    exact ⟨by omega, hc.2⟩

theorem risingFrom_putCell {lo a : Nat} {v : Byte} {cells : List Host.Cell} (ha : lo ≤ a)
    (hc : risingFrom lo cells = true) : risingFrom lo (putCell a v cells) = true := by
  induction cells generalizing lo with
  | nil => simpa [putCell, risingFrom] using ha
  | cons c rest ih =>
    obtain ⟨k, w⟩ := c
    simp only [risingFrom, Bool.and_eq_true, decide_eq_true_eq] at hc
    simp only [putCell]
    split
    · simp only [risingFrom, Bool.and_eq_true, decide_eq_true_eq]; exact ⟨ha, by omega, hc.2⟩
    · split
      · next h => subst h; simp only [risingFrom, Bool.and_eq_true, decide_eq_true_eq]; exact ⟨ha, hc.2⟩
      · simp only [risingFrom, Bool.and_eq_true, decide_eq_true_eq]
        exact ⟨hc.1, ih (by omega) hc.2⟩

theorem risingFrom_dropCell {lo a : Nat} {cells : List Host.Cell} (hc : risingFrom lo cells = true) :
    risingFrom lo (dropCell a cells) = true := by
  induction cells generalizing lo with
  | nil => rfl
  | cons c rest ih =>
    obtain ⟨k, w⟩ := c
    simp only [risingFrom, Bool.and_eq_true, decide_eq_true_eq] at hc
    have hr := ih hc.2
    unfold dropCell at hr ⊢
    rw [List.filter_cons]
    split
    · simp only [risingFrom, Bool.and_eq_true, decide_eq_true_eq]; exact ⟨hc.1, hr⟩
    · exact risingFrom_mono (by omega) hr

theorem mem_putCell {a : Nat} {v : Byte} {cells : List Host.Cell} {c : Host.Cell} (h : c ∈ putCell a v cells) :
    c = (a, v) ∨ c ∈ cells := by
  induction cells with
  | nil => simpa [putCell] using h
  | cons d rest ih =>
    obtain ⟨k, w⟩ := d
    simp only [putCell] at h
    split at h
    · simpa using h
    · split at h
      · rcases List.mem_cons.mp h with h | h
        · exact .inl h
        · exact .inr (List.mem_cons_of_mem _ h)
      · rcases List.mem_cons.mp h with h | h
        · exact .inr (h ▸ List.mem_cons_self)
        · exact (ih h).imp id (List.mem_cons_of_mem _)

/-- A write keeps the canonical form. -/
theorem Memory.wf_write {m : Memory} (a : Nat) (v : Byte) (h : m.wf = true) : (m.write a v).wf = true := by
  simp only [Memory.wf, Bool.and_eq_true, List.all_eq_true] at h ⊢
  by_cases ha : a < Config.memSize
  · have hbg : ∀ cells b, Memory.background { m with cells := cells } b = m.background b := fun _ _ => rfl
    simp only [Memory.write, ha, if_true, hbg]
    by_cases hv : v = m.background a
    · simp only [hv, if_true]
      exact ⟨risingFrom_dropCell h.1, fun c hc => h.2 c (List.mem_of_mem_filter hc)⟩
    · simp only [hv, if_false]
      refine ⟨risingFrom_putCell (Nat.zero_le _) h.1, fun c hc => ?_⟩
      rcases mem_putCell hc with rfl | hc
      · simp [ha, hv]
      · exact h.2 c hc
  · simpa only [Memory.write, ha, if_false] using h

/-- A block of writes keeps the canonical form. -/
theorem Memory.wf_writeBytes {m : Memory} (a : Nat) (vs : List Byte) (h : m.wf = true) :
    (m.writeBytes a vs).wf = true := by
  induction vs generalizing m a with
  | nil => exact h
  | cons v vs ih => exact ih _ (Memory.wf_write a v h)

/-- With nothing listed, memory is in canonical form whatever the font. -/
theorem Memory.wf_nil (font : Vector Byte Config.fontSize) : Memory.wf ⟨font, []⟩ = true := rfl

end Sys2Proof.Machine
end

