-- ==== Sys2Proof/Laws/State.lean ====
section
/-! SUPPORT. What each update of the state leaves in each field: one lemma per field per update, true by `rfl`. -/

namespace Sys2Proof.Machine

/-! ### setReg -/

@[simp] theorem State.setReg_v (s : State) (x : Reg) (b : Byte) : (s.setReg x b).v = s.v.set x b := rfl
@[simp] theorem State.setReg_i (s : State) (x : Reg) (b : Byte) : (s.setReg x b).i = s.i := rfl
@[simp] theorem State.setReg_pc (s : State) (x : Reg) (b : Byte) : (s.setReg x b).pc = s.pc := rfl
@[simp] theorem State.setReg_sp (s : State) (x : Reg) (b : Byte) : (s.setReg x b).sp = s.sp := rfl
@[simp] theorem State.setReg_stack (s : State) (x : Reg) (b : Byte) : (s.setReg x b).stack = s.stack := rfl
@[simp] theorem State.setReg_dt (s : State) (x : Reg) (b : Byte) : (s.setReg x b).dt = s.dt := rfl
@[simp] theorem State.setReg_st (s : State) (x : Reg) (b : Byte) : (s.setReg x b).st = s.st := rfl
@[simp] theorem State.setReg_fb (s : State) (x : Reg) (b : Byte) : (s.setReg x b).fb = s.fb := rfl
@[simp] theorem State.setReg_keys (s : State) (x : Reg) (b : Byte) : (s.setReg x b).keys = s.keys := rfl
@[simp] theorem State.setReg_mem (s : State) (x : Reg) (b : Byte) : (s.setReg x b).mem = s.mem := rfl
@[simp] theorem State.setReg_run (s : State) (x : Reg) (b : Byte) : (s.setReg x b).run = s.run := rfl
@[simp] theorem State.setReg_cause (s : State) (x : Reg) (b : Byte) : (s.setReg x b).cause = s.cause := rfl
@[simp] theorem State.setReg_info (s : State) (x : Reg) (b : Byte) : (s.setReg x b).info = s.info := rfl
@[simp] theorem State.setReg_tick (s : State) (x : Reg) (b : Byte) : (s.setReg x b).tick = s.tick := rfl
@[simp] theorem State.setReg_rnd (s : State) (x : Reg) (b : Byte) : (s.setReg x b).rnd = s.rnd := rfl
@[simp] theorem State.setReg_draws (s : State) (x : Reg) (b : Byte) : (s.setReg x b).draws = s.draws := rfl

/-! ### setI -/

@[simp] theorem State.setI_v (s : State) (w : Word) : (s.setI w).v = s.v := rfl
@[simp] theorem State.setI_i (s : State) (w : Word) : (s.setI w).i = w := rfl
@[simp] theorem State.setI_pc (s : State) (w : Word) : (s.setI w).pc = s.pc := rfl
@[simp] theorem State.setI_sp (s : State) (w : Word) : (s.setI w).sp = s.sp := rfl
@[simp] theorem State.setI_stack (s : State) (w : Word) : (s.setI w).stack = s.stack := rfl
@[simp] theorem State.setI_dt (s : State) (w : Word) : (s.setI w).dt = s.dt := rfl
@[simp] theorem State.setI_st (s : State) (w : Word) : (s.setI w).st = s.st := rfl
@[simp] theorem State.setI_fb (s : State) (w : Word) : (s.setI w).fb = s.fb := rfl
@[simp] theorem State.setI_keys (s : State) (w : Word) : (s.setI w).keys = s.keys := rfl
@[simp] theorem State.setI_mem (s : State) (w : Word) : (s.setI w).mem = s.mem := rfl
@[simp] theorem State.setI_run (s : State) (w : Word) : (s.setI w).run = s.run := rfl
@[simp] theorem State.setI_cause (s : State) (w : Word) : (s.setI w).cause = s.cause := rfl
@[simp] theorem State.setI_info (s : State) (w : Word) : (s.setI w).info = s.info := rfl
@[simp] theorem State.setI_tick (s : State) (w : Word) : (s.setI w).tick = s.tick := rfl
@[simp] theorem State.setI_rnd (s : State) (w : Word) : (s.setI w).rnd = s.rnd := rfl
@[simp] theorem State.setI_draws (s : State) (w : Word) : (s.setI w).draws = s.draws := rfl

/-! ### setPc -/

@[simp] theorem State.setPc_v (s : State) (w : Word) : (s.setPc w).v = s.v := rfl
@[simp] theorem State.setPc_i (s : State) (w : Word) : (s.setPc w).i = s.i := rfl
@[simp] theorem State.setPc_pc (s : State) (w : Word) : (s.setPc w).pc = w := rfl
@[simp] theorem State.setPc_sp (s : State) (w : Word) : (s.setPc w).sp = s.sp := rfl
@[simp] theorem State.setPc_stack (s : State) (w : Word) : (s.setPc w).stack = s.stack := rfl
@[simp] theorem State.setPc_dt (s : State) (w : Word) : (s.setPc w).dt = s.dt := rfl
@[simp] theorem State.setPc_st (s : State) (w : Word) : (s.setPc w).st = s.st := rfl
@[simp] theorem State.setPc_fb (s : State) (w : Word) : (s.setPc w).fb = s.fb := rfl
@[simp] theorem State.setPc_keys (s : State) (w : Word) : (s.setPc w).keys = s.keys := rfl
@[simp] theorem State.setPc_mem (s : State) (w : Word) : (s.setPc w).mem = s.mem := rfl
@[simp] theorem State.setPc_run (s : State) (w : Word) : (s.setPc w).run = s.run := rfl
@[simp] theorem State.setPc_cause (s : State) (w : Word) : (s.setPc w).cause = s.cause := rfl
@[simp] theorem State.setPc_info (s : State) (w : Word) : (s.setPc w).info = s.info := rfl
@[simp] theorem State.setPc_tick (s : State) (w : Word) : (s.setPc w).tick = s.tick := rfl
@[simp] theorem State.setPc_rnd (s : State) (w : Word) : (s.setPc w).rnd = s.rnd := rfl
@[simp] theorem State.setPc_draws (s : State) (w : Word) : (s.setPc w).draws = s.draws := rfl

/-! ### advance -/

@[simp] theorem State.advance_v (s : State) : (s.advance).v = s.v := rfl
@[simp] theorem State.advance_i (s : State) : (s.advance).i = s.i := rfl
@[simp] theorem State.advance_pc (s : State) : (s.advance).pc = s.pc + 2 := rfl
@[simp] theorem State.advance_sp (s : State) : (s.advance).sp = s.sp := rfl
@[simp] theorem State.advance_stack (s : State) : (s.advance).stack = s.stack := rfl
@[simp] theorem State.advance_dt (s : State) : (s.advance).dt = s.dt := rfl
@[simp] theorem State.advance_st (s : State) : (s.advance).st = s.st := rfl
@[simp] theorem State.advance_fb (s : State) : (s.advance).fb = s.fb := rfl
@[simp] theorem State.advance_keys (s : State) : (s.advance).keys = s.keys := rfl
@[simp] theorem State.advance_mem (s : State) : (s.advance).mem = s.mem := rfl
@[simp] theorem State.advance_run (s : State) : (s.advance).run = s.run := rfl
@[simp] theorem State.advance_cause (s : State) : (s.advance).cause = s.cause := rfl
@[simp] theorem State.advance_info (s : State) : (s.advance).info = s.info := rfl
@[simp] theorem State.advance_tick (s : State) : (s.advance).tick = s.tick := rfl
@[simp] theorem State.advance_rnd (s : State) : (s.advance).rnd = s.rnd := rfl
@[simp] theorem State.advance_draws (s : State) : (s.advance).draws = s.draws := rfl

/-! ### skipIf -/

@[simp] theorem State.skipIf_v (s : State) (c : Bool) : (s.skipIf c).v = s.v := rfl
@[simp] theorem State.skipIf_i (s : State) (c : Bool) : (s.skipIf c).i = s.i := rfl
@[simp] theorem State.skipIf_pc (s : State) (c : Bool) : (s.skipIf c).pc = if c then s.pc + 4 else s.pc + 2 := rfl
@[simp] theorem State.skipIf_sp (s : State) (c : Bool) : (s.skipIf c).sp = s.sp := rfl
@[simp] theorem State.skipIf_stack (s : State) (c : Bool) : (s.skipIf c).stack = s.stack := rfl
@[simp] theorem State.skipIf_dt (s : State) (c : Bool) : (s.skipIf c).dt = s.dt := rfl
@[simp] theorem State.skipIf_st (s : State) (c : Bool) : (s.skipIf c).st = s.st := rfl
@[simp] theorem State.skipIf_fb (s : State) (c : Bool) : (s.skipIf c).fb = s.fb := rfl
@[simp] theorem State.skipIf_keys (s : State) (c : Bool) : (s.skipIf c).keys = s.keys := rfl
@[simp] theorem State.skipIf_mem (s : State) (c : Bool) : (s.skipIf c).mem = s.mem := rfl
@[simp] theorem State.skipIf_run (s : State) (c : Bool) : (s.skipIf c).run = s.run := rfl
@[simp] theorem State.skipIf_cause (s : State) (c : Bool) : (s.skipIf c).cause = s.cause := rfl
@[simp] theorem State.skipIf_info (s : State) (c : Bool) : (s.skipIf c).info = s.info := rfl
@[simp] theorem State.skipIf_tick (s : State) (c : Bool) : (s.skipIf c).tick = s.tick := rfl
@[simp] theorem State.skipIf_rnd (s : State) (c : Bool) : (s.skipIf c).rnd = s.rnd := rfl
@[simp] theorem State.skipIf_draws (s : State) (c : Bool) : (s.skipIf c).draws = s.draws := rfl

/-! ### setDt -/

@[simp] theorem State.setDt_v (s : State) (b : Byte) : (s.setDt b).v = s.v := rfl
@[simp] theorem State.setDt_i (s : State) (b : Byte) : (s.setDt b).i = s.i := rfl
@[simp] theorem State.setDt_pc (s : State) (b : Byte) : (s.setDt b).pc = s.pc := rfl
@[simp] theorem State.setDt_sp (s : State) (b : Byte) : (s.setDt b).sp = s.sp := rfl
@[simp] theorem State.setDt_stack (s : State) (b : Byte) : (s.setDt b).stack = s.stack := rfl
@[simp] theorem State.setDt_dt (s : State) (b : Byte) : (s.setDt b).dt = b := rfl
@[simp] theorem State.setDt_st (s : State) (b : Byte) : (s.setDt b).st = s.st := rfl
@[simp] theorem State.setDt_fb (s : State) (b : Byte) : (s.setDt b).fb = s.fb := rfl
@[simp] theorem State.setDt_keys (s : State) (b : Byte) : (s.setDt b).keys = s.keys := rfl
@[simp] theorem State.setDt_mem (s : State) (b : Byte) : (s.setDt b).mem = s.mem := rfl
@[simp] theorem State.setDt_run (s : State) (b : Byte) : (s.setDt b).run = s.run := rfl
@[simp] theorem State.setDt_cause (s : State) (b : Byte) : (s.setDt b).cause = s.cause := rfl
@[simp] theorem State.setDt_info (s : State) (b : Byte) : (s.setDt b).info = s.info := rfl
@[simp] theorem State.setDt_tick (s : State) (b : Byte) : (s.setDt b).tick = s.tick := rfl
@[simp] theorem State.setDt_rnd (s : State) (b : Byte) : (s.setDt b).rnd = s.rnd := rfl
@[simp] theorem State.setDt_draws (s : State) (b : Byte) : (s.setDt b).draws = s.draws := rfl

/-! ### setSt -/

@[simp] theorem State.setSt_v (s : State) (b : Byte) : (s.setSt b).v = s.v := rfl
@[simp] theorem State.setSt_i (s : State) (b : Byte) : (s.setSt b).i = s.i := rfl
@[simp] theorem State.setSt_pc (s : State) (b : Byte) : (s.setSt b).pc = s.pc := rfl
@[simp] theorem State.setSt_sp (s : State) (b : Byte) : (s.setSt b).sp = s.sp := rfl
@[simp] theorem State.setSt_stack (s : State) (b : Byte) : (s.setSt b).stack = s.stack := rfl
@[simp] theorem State.setSt_dt (s : State) (b : Byte) : (s.setSt b).dt = s.dt := rfl
@[simp] theorem State.setSt_st (s : State) (b : Byte) : (s.setSt b).st = b := rfl
@[simp] theorem State.setSt_fb (s : State) (b : Byte) : (s.setSt b).fb = s.fb := rfl
@[simp] theorem State.setSt_keys (s : State) (b : Byte) : (s.setSt b).keys = s.keys := rfl
@[simp] theorem State.setSt_mem (s : State) (b : Byte) : (s.setSt b).mem = s.mem := rfl
@[simp] theorem State.setSt_run (s : State) (b : Byte) : (s.setSt b).run = s.run := rfl
@[simp] theorem State.setSt_cause (s : State) (b : Byte) : (s.setSt b).cause = s.cause := rfl
@[simp] theorem State.setSt_info (s : State) (b : Byte) : (s.setSt b).info = s.info := rfl
@[simp] theorem State.setSt_tick (s : State) (b : Byte) : (s.setSt b).tick = s.tick := rfl
@[simp] theorem State.setSt_rnd (s : State) (b : Byte) : (s.setSt b).rnd = s.rnd := rfl
@[simp] theorem State.setSt_draws (s : State) (b : Byte) : (s.setSt b).draws = s.draws := rfl

/-! ### setFb -/

@[simp] theorem State.setFb_v (s : State) (f : FrameBuffer) : (s.setFb f).v = s.v := rfl
@[simp] theorem State.setFb_i (s : State) (f : FrameBuffer) : (s.setFb f).i = s.i := rfl
@[simp] theorem State.setFb_pc (s : State) (f : FrameBuffer) : (s.setFb f).pc = s.pc := rfl
@[simp] theorem State.setFb_sp (s : State) (f : FrameBuffer) : (s.setFb f).sp = s.sp := rfl
@[simp] theorem State.setFb_stack (s : State) (f : FrameBuffer) : (s.setFb f).stack = s.stack := rfl
@[simp] theorem State.setFb_dt (s : State) (f : FrameBuffer) : (s.setFb f).dt = s.dt := rfl
@[simp] theorem State.setFb_st (s : State) (f : FrameBuffer) : (s.setFb f).st = s.st := rfl
@[simp] theorem State.setFb_fb (s : State) (f : FrameBuffer) : (s.setFb f).fb = f := rfl
@[simp] theorem State.setFb_keys (s : State) (f : FrameBuffer) : (s.setFb f).keys = s.keys := rfl
@[simp] theorem State.setFb_mem (s : State) (f : FrameBuffer) : (s.setFb f).mem = s.mem := rfl
@[simp] theorem State.setFb_run (s : State) (f : FrameBuffer) : (s.setFb f).run = s.run := rfl
@[simp] theorem State.setFb_cause (s : State) (f : FrameBuffer) : (s.setFb f).cause = s.cause := rfl
@[simp] theorem State.setFb_info (s : State) (f : FrameBuffer) : (s.setFb f).info = s.info := rfl
@[simp] theorem State.setFb_tick (s : State) (f : FrameBuffer) : (s.setFb f).tick = s.tick := rfl
@[simp] theorem State.setFb_rnd (s : State) (f : FrameBuffer) : (s.setFb f).rnd = s.rnd := rfl
@[simp] theorem State.setFb_draws (s : State) (f : FrameBuffer) : (s.setFb f).draws = s.draws := rfl

/-! ### setMem -/

@[simp] theorem State.setMem_v (s : State) (m : Memory) : (s.setMem m).v = s.v := rfl
@[simp] theorem State.setMem_i (s : State) (m : Memory) : (s.setMem m).i = s.i := rfl
@[simp] theorem State.setMem_pc (s : State) (m : Memory) : (s.setMem m).pc = s.pc := rfl
@[simp] theorem State.setMem_sp (s : State) (m : Memory) : (s.setMem m).sp = s.sp := rfl
@[simp] theorem State.setMem_stack (s : State) (m : Memory) : (s.setMem m).stack = s.stack := rfl
@[simp] theorem State.setMem_dt (s : State) (m : Memory) : (s.setMem m).dt = s.dt := rfl
@[simp] theorem State.setMem_st (s : State) (m : Memory) : (s.setMem m).st = s.st := rfl
@[simp] theorem State.setMem_fb (s : State) (m : Memory) : (s.setMem m).fb = s.fb := rfl
@[simp] theorem State.setMem_keys (s : State) (m : Memory) : (s.setMem m).keys = s.keys := rfl
@[simp] theorem State.setMem_mem (s : State) (m : Memory) : (s.setMem m).mem = m := rfl
@[simp] theorem State.setMem_run (s : State) (m : Memory) : (s.setMem m).run = s.run := rfl
@[simp] theorem State.setMem_cause (s : State) (m : Memory) : (s.setMem m).cause = s.cause := rfl
@[simp] theorem State.setMem_info (s : State) (m : Memory) : (s.setMem m).info = s.info := rfl
@[simp] theorem State.setMem_tick (s : State) (m : Memory) : (s.setMem m).tick = s.tick := rfl
@[simp] theorem State.setMem_rnd (s : State) (m : Memory) : (s.setMem m).rnd = s.rnd := rfl
@[simp] theorem State.setMem_draws (s : State) (m : Memory) : (s.setMem m).draws = s.draws := rfl

/-! ### raise -/

@[simp] theorem State.raise_v (s : State) (c : Cause) (w : Word) : (s.raise c w).v = s.v := rfl
@[simp] theorem State.raise_i (s : State) (c : Cause) (w : Word) : (s.raise c w).i = s.i := rfl
@[simp] theorem State.raise_pc (s : State) (c : Cause) (w : Word) : (s.raise c w).pc = s.pc := rfl
@[simp] theorem State.raise_sp (s : State) (c : Cause) (w : Word) : (s.raise c w).sp = s.sp := rfl
@[simp] theorem State.raise_stack (s : State) (c : Cause) (w : Word) : (s.raise c w).stack = s.stack := rfl
@[simp] theorem State.raise_dt (s : State) (c : Cause) (w : Word) : (s.raise c w).dt = s.dt := rfl
@[simp] theorem State.raise_st (s : State) (c : Cause) (w : Word) : (s.raise c w).st = s.st := rfl
@[simp] theorem State.raise_fb (s : State) (c : Cause) (w : Word) : (s.raise c w).fb = s.fb := rfl
@[simp] theorem State.raise_keys (s : State) (c : Cause) (w : Word) : (s.raise c w).keys = s.keys := rfl
@[simp] theorem State.raise_mem (s : State) (c : Cause) (w : Word) : (s.raise c w).mem = s.mem := rfl
@[simp] theorem State.raise_run (s : State) (c : Cause) (w : Word) : (s.raise c w).run = false := rfl
@[simp] theorem State.raise_cause (s : State) (c : Cause) (w : Word) : (s.raise c w).cause = c := rfl
@[simp] theorem State.raise_info (s : State) (c : Cause) (w : Word) : (s.raise c w).info = w := rfl
@[simp] theorem State.raise_tick (s : State) (c : Cause) (w : Word) : (s.raise c w).tick = s.tick := rfl
@[simp] theorem State.raise_rnd (s : State) (c : Cause) (w : Word) : (s.raise c w).rnd = s.rnd := rfl
@[simp] theorem State.raise_draws (s : State) (c : Cause) (w : Word) : (s.raise c w).draws = s.draws := rfl

/-! ### timerTick -/

@[simp] theorem State.timerTick_v (s : State) : (s.timerTick).v = s.v := rfl
@[simp] theorem State.timerTick_i (s : State) : (s.timerTick).i = s.i := rfl
@[simp] theorem State.timerTick_pc (s : State) : (s.timerTick).pc = s.pc := rfl
@[simp] theorem State.timerTick_sp (s : State) : (s.timerTick).sp = s.sp := rfl
@[simp] theorem State.timerTick_stack (s : State) : (s.timerTick).stack = s.stack := rfl
@[simp] theorem State.timerTick_dt (s : State) : (s.timerTick).dt = countDown s.tick s.dt := rfl
@[simp] theorem State.timerTick_st (s : State) : (s.timerTick).st = countDown s.tick s.st := rfl
@[simp] theorem State.timerTick_fb (s : State) : (s.timerTick).fb = s.fb := rfl
@[simp] theorem State.timerTick_keys (s : State) : (s.timerTick).keys = s.keys := rfl
@[simp] theorem State.timerTick_mem (s : State) : (s.timerTick).mem = s.mem := rfl
@[simp] theorem State.timerTick_run (s : State) : (s.timerTick).run = s.run := rfl
@[simp] theorem State.timerTick_cause (s : State) : (s.timerTick).cause = s.cause := rfl
@[simp] theorem State.timerTick_info (s : State) : (s.timerTick).info = s.info := rfl
@[simp] theorem State.timerTick_tick (s : State) : (s.timerTick).tick = s.tick := rfl
@[simp] theorem State.timerTick_rnd (s : State) : (s.timerTick).rnd = s.rnd := rfl
@[simp] theorem State.timerTick_draws (s : State) : (s.timerTick).draws = s.draws := rfl

/-! ### drawInputs -/

@[simp] theorem State.drawInputs_v (s : State) : (s.drawInputs).v = s.v := rfl
@[simp] theorem State.drawInputs_i (s : State) : (s.drawInputs).i = s.i := rfl
@[simp] theorem State.drawInputs_pc (s : State) : (s.drawInputs).pc = s.pc := rfl
@[simp] theorem State.drawInputs_sp (s : State) : (s.drawInputs).sp = s.sp := rfl
@[simp] theorem State.drawInputs_stack (s : State) : (s.drawInputs).stack = s.stack := rfl
@[simp] theorem State.drawInputs_dt (s : State) : (s.drawInputs).dt = s.dt := rfl
@[simp] theorem State.drawInputs_st (s : State) : (s.drawInputs).st = s.st := rfl
@[simp] theorem State.drawInputs_fb (s : State) : (s.drawInputs).fb = s.fb := rfl
@[simp] theorem State.drawInputs_keys (s : State) : (s.drawInputs).keys = Config.freeKeys s.draws := rfl
@[simp] theorem State.drawInputs_mem (s : State) : (s.drawInputs).mem = s.mem := rfl
@[simp] theorem State.drawInputs_run (s : State) : (s.drawInputs).run = s.run := rfl
@[simp] theorem State.drawInputs_cause (s : State) : (s.drawInputs).cause = s.cause := rfl
@[simp] theorem State.drawInputs_info (s : State) : (s.drawInputs).info = s.info := rfl
@[simp] theorem State.drawInputs_tick (s : State) : (s.drawInputs).tick = Config.freeTick s.draws := rfl
@[simp] theorem State.drawInputs_rnd (s : State) : (s.drawInputs).rnd = Config.freeRnd s.draws := rfl
@[simp] theorem State.drawInputs_draws (s : State) : (s.drawInputs).draws = s.draws + 1 := rfl

/-! ### withInputs -/

@[simp] theorem State.withInputs_v (s : State) (k : Word) (c : Bool) (b : Byte) : (s.withInputs k c b).v = s.v := rfl
@[simp] theorem State.withInputs_i (s : State) (k : Word) (c : Bool) (b : Byte) : (s.withInputs k c b).i = s.i := rfl
@[simp] theorem State.withInputs_pc (s : State) (k : Word) (c : Bool) (b : Byte) : (s.withInputs k c b).pc = s.pc := rfl
@[simp] theorem State.withInputs_sp (s : State) (k : Word) (c : Bool) (b : Byte) : (s.withInputs k c b).sp = s.sp := rfl
@[simp] theorem State.withInputs_stack (s : State) (k : Word) (c : Bool) (b : Byte) : (s.withInputs k c b).stack = s.stack := rfl
@[simp] theorem State.withInputs_dt (s : State) (k : Word) (c : Bool) (b : Byte) : (s.withInputs k c b).dt = s.dt := rfl
@[simp] theorem State.withInputs_st (s : State) (k : Word) (c : Bool) (b : Byte) : (s.withInputs k c b).st = s.st := rfl
@[simp] theorem State.withInputs_fb (s : State) (k : Word) (c : Bool) (b : Byte) : (s.withInputs k c b).fb = s.fb := rfl
@[simp] theorem State.withInputs_keys (s : State) (k : Word) (c : Bool) (b : Byte) : (s.withInputs k c b).keys = k := rfl
@[simp] theorem State.withInputs_mem (s : State) (k : Word) (c : Bool) (b : Byte) : (s.withInputs k c b).mem = s.mem := rfl
@[simp] theorem State.withInputs_run (s : State) (k : Word) (c : Bool) (b : Byte) : (s.withInputs k c b).run = s.run := rfl
@[simp] theorem State.withInputs_cause (s : State) (k : Word) (c : Bool) (b : Byte) : (s.withInputs k c b).cause = s.cause := rfl
@[simp] theorem State.withInputs_info (s : State) (k : Word) (c : Bool) (b : Byte) : (s.withInputs k c b).info = s.info := rfl
@[simp] theorem State.withInputs_tick (s : State) (k : Word) (c : Bool) (b : Byte) : (s.withInputs k c b).tick = c := rfl
@[simp] theorem State.withInputs_rnd (s : State) (k : Word) (c : Bool) (b : Byte) : (s.withInputs k c b).rnd = b := rfl
@[simp] theorem State.withInputs_draws (s : State) (k : Word) (c : Bool) (b : Byte) : (s.withInputs k c b).draws = s.draws := rfl

/-! ### resetWith -/

@[simp] theorem State.resetWith_v (f : Vector Byte Config.fontSize) : (State.resetWith f).v = Vector.replicate 16 0 := rfl
@[simp] theorem State.resetWith_i (f : Vector Byte Config.fontSize) : (State.resetWith f).i = Config.programOrigin := rfl
@[simp] theorem State.resetWith_pc (f : Vector Byte Config.fontSize) : (State.resetWith f).pc = Config.programOrigin := rfl
@[simp] theorem State.resetWith_sp (f : Vector Byte Config.fontSize) : (State.resetWith f).sp = 0 := rfl
@[simp] theorem State.resetWith_stack (f : Vector Byte Config.fontSize) : (State.resetWith f).stack = Vector.replicate 16 0 := rfl
@[simp] theorem State.resetWith_dt (f : Vector Byte Config.fontSize) : (State.resetWith f).dt = 0 := rfl
@[simp] theorem State.resetWith_st (f : Vector Byte Config.fontSize) : (State.resetWith f).st = 0 := rfl
@[simp] theorem State.resetWith_fb (f : Vector Byte Config.fontSize) : (State.resetWith f).fb = Vector.replicate 32 (Vector.replicate 64 false) := rfl
@[simp] theorem State.resetWith_keys (f : Vector Byte Config.fontSize) : (State.resetWith f).keys = 0 := rfl
@[simp] theorem State.resetWith_mem (f : Vector Byte Config.fontSize) : (State.resetWith f).mem = { font := f, cells := [] } := rfl
@[simp] theorem State.resetWith_run (f : Vector Byte Config.fontSize) : (State.resetWith f).run = true := rfl
@[simp] theorem State.resetWith_cause (f : Vector Byte Config.fontSize) : (State.resetWith f).cause = .none := rfl
@[simp] theorem State.resetWith_info (f : Vector Byte Config.fontSize) : (State.resetWith f).info = 0 := rfl
@[simp] theorem State.resetWith_tick (f : Vector Byte Config.fontSize) : (State.resetWith f).tick = Config.freeTick 0 := rfl
@[simp] theorem State.resetWith_rnd (f : Vector Byte Config.fontSize) : (State.resetWith f).rnd = Config.freeRnd 0 := rfl
@[simp] theorem State.resetWith_draws (f : Vector Byte Config.fontSize) : (State.resetWith f).draws = 1 := rfl

end Sys2Proof.Machine
end

