-- ==== Sys2Proof/Laws/Ops.lean ====
section
/-! SUPPORT. What each shared operation can do, said once: registers, stack, operand checks, ranges, flags, fetch. -/

namespace Sys2Proof.Machine

/-! ### Registers -/

theorem State.reg_setReg (s : State) (x k : Reg) (b : Byte) :
    (s.setReg x b).reg k = if k = x then b else s.reg k := by
  simp only [State.reg, State.setReg, Fin.getElem_fin, Vector.getElem_set, Fin.ext_iff]
  by_cases h : k.val = x.val
  · simp [h]
  · rw [if_neg h, if_neg (fun e : x.val = k.val => h e.symm)]

@[simp] theorem State.reg_setReg_self (s : State) (x : Reg) (b : Byte) : (s.setReg x b).reg x = b := by
  simp [State.reg_setReg]

/-! ### The stack (R27) -/

/-- A push with a free slot: one frame more, the value in the new top slot, nothing else. -/
theorem State.push_of_lt (s : State) (w : Word) (h : s.sp.val < 16) :
    s.push w = some { s with sp := ⟨s.sp.val + 1, by omega⟩, stack := s.stack.set s.sp.val w } := by
  simp [State.push, h]

/-- A push with 16 live frames: refused. -/
theorem State.push_of_full (s : State) (w : Word) (h : ¬ s.sp.val < 16) : s.push w = none := by
  simp [State.push, h]

/-- A pop of a live frame: the top slot's value, one frame fewer, the slots as they were. -/
theorem State.pop_of_pos (s : State) (h : 0 < s.sp.val) :
    s.pop = some (s.stack[s.sp.val - 1], { s with sp := ⟨s.sp.val - 1, by omega⟩ }) := by
  simp [State.pop, h]

/-- A pop with no live frame: refused. -/
theorem State.pop_of_empty (s : State) (h : ¬ 0 < s.sp.val) : s.pop = none := by
  simp [State.pop, h]

/-! ### Operands -/

theorem litAddr_toNat (nnn : Lit12) : (litAddr nnn).toNat = nnn.toNat := by
  have := nnn.isLt
  simp only [litAddr, BitVec.truncate_eq_setWidth, BitVec.toNat_setWidth]; omega

theorem zext16_toNat (b : Byte) : (zext16 b).toNat = b.toNat := by
  have := b.isLt
  simp only [zext16, BitVec.truncate_eq_setWidth, BitVec.toNat_setWidth]; omega

theorem zext16_eq (b : Byte) : zext16 b = BitVec.ofNat 16 b.toNat := by
  apply BitVec.eq_of_toNat_eq
  have := b.isLt
  rw [zext16_toNat, BitVec.toNat_ofNat]; omega

/-- `I + x + 1` modulo 65536 (R169, R170). -/
theorem blockEnd_toNat (i : Word) (x : Reg) :
    (i + BitVec.ofNat 16 (x.val + 1)).toNat = (i.toNat + x.val + 1) % 65536 := by
  rw [BitVec.toNat_add, BitVec.toNat_ofNat]; omega

theorem State.regsUpTo_length (s : State) (x : Reg) : (s.regsUpTo x).length = x.val + 1 := by
  simp only [State.regsUpTo, List.length_take, Vector.length_toList]; omega

/-- Byte k of the block store is V[k], for k = 0 to x (R169). -/
theorem State.regsUpTo_getElem? (s : State) (x : Reg) (k : Nat) :
    (s.regsUpTo x)[k]? = if h : k < x.val + 1 then some (s.v[k]) else none := by
  simp only [State.regsUpTo, List.getElem?_take]
  split
  · next h => rw [List.getElem?_eq_getElem (by simp only [Vector.length_toList]; omega)]; simp
  · rfl

/-- The registers after a block load: bytes from `I` for 0 to x, as they were above x (R170). -/
theorem State.loadRegsUpTo_getElem (s : State) (x k : Reg) :
    (s.loadRegsUpTo x)[k] = if k ≤ x then s.mem.read (s.i.toNat + k) else s.v[k] := by
  simp [State.loadRegsUpTo, State.reg]

/-! ### Operand checks -/

theorem nibbleOperand_of_le (b : Byte) (h : b.toNat < 16) : nibbleOperand b = some ⟨b.toNat, h⟩ := by
  simp [nibbleOperand, h]

theorem nibbleOperand_of_gt (b : Byte) (h : ¬ b.toNat < 16) : nibbleOperand b = none := by
  simp [nibbleOperand, h]

theorem rangeFault_eq_none_iff (base : Word) (len : Nat) :
    rangeFault base len = none ↔ (len = 0 ∨ base.toNat + len - 1 ≤ 0xFFF) := by
  unfold rangeFault
  split
  · next h => simp only [reduceCtorEq, false_iff]; omega
  · next h => simp only [true_iff]; omega

/-- Where the range passes 0xFFF the check answers max(I, 0x1000) (R57). -/
theorem rangeFault_of_past (base : Word) (len : Nat) (h0 : len ≠ 0) (h : base.toNat + len - 1 > 0xFFF) :
    rangeFault base len = some (BitVec.ofNat 16 (max base.toNat 0x1000)) := by
  rw [rangeFault, if_pos ⟨h0, h⟩]
  split
  · next hb => rw [Nat.max_eq_right (by omega)]; rfl
  · next hb => rw [Nat.max_eq_left (by omega)]; simp

/-- The least key down: it is down, and no lower one is. -/
theorem State.leastKeyDown_eq_some_iff (s : State) (k : Fin 16) :
    s.leastKeyDown = some k ↔ s.keyDown k = true ∧ ∀ j < k, s.keyDown j = false := by
  have hs : (List.finRange 16).Pairwise (· < ·) := by decide
  unfold State.leastKeyDown
  rw [List.find?_eq_some_iff_append]
  constructor
  · rintro ⟨hk, as, bs, he, has⟩
    refine ⟨hk, fun j hj => ?_⟩
    have hm : j ∈ List.finRange 16 := List.mem_finRange j
    rw [he, List.pairwise_append] at hs
    rw [he] at hm
    rcases List.mem_append.mp hm with hm | hm
    · simpa using has j hm
    · exfalso
      rcases List.mem_cons.mp hm with rfl | hm
      · exact lt_irrefl _ hj
      · have := (List.pairwise_cons.mp hs.2.1).1 j hm
        exact lt_asymm hj this
  · rintro ⟨hk, hlow⟩
    refine ⟨hk, ?_⟩
    obtain ⟨as, bs, he⟩ := List.append_of_mem (List.mem_finRange k)
    refine ⟨as, bs, he, fun a ha => ?_⟩
    rw [he, List.pairwise_append] at hs
    have : a < k := hs.2.2 a ha k List.mem_cons_self
    simp [hlow a this]

theorem State.leastKeyDown_eq_none_iff (s : State) : s.leastKeyDown = none ↔ ∀ k, s.keyDown k = false := by
  simp [State.leastKeyDown]

/-! ### Flags -/

theorem addWithCarry_result (a b : Byte) : (addWithCarry a b).1.toNat = (a.toNat + b.toNat) % 256 := by
  simp [addWithCarry]

theorem addWithCarry_flag (a b : Byte) :
    (addWithCarry a b).2 = if a.toNat + b.toNat > 255 then 1 else 0 := by
  simp [addWithCarry, flagByte]

theorem subWithNotBorrow_result (a b : Byte) :
    (subWithNotBorrow a b).1.toNat = (a.toNat + 256 - b.toNat) % 256 := by
  have := a.isLt
  have := b.isLt
  simp only [subWithNotBorrow, BitVec.toNat_ofInt]
  omega

theorem subWithNotBorrow_flag (a b : Byte) :
    (subWithNotBorrow a b).2 = if a.toNat > b.toNat then 1 else 0 := by
  simp [subWithNotBorrow, flagByte]

/-! ### The timer tick (R203) -/

theorem countDown_toNat (tick : Bool) (t : Byte) :
    (countDown tick t).toNat = if tick then t.toNat - 1 else t.toNat := by
  unfold countDown
  split
  · next h => subst h; split <;> rfl
  · next h =>
    have h0 : t.toNat ≠ 0 := fun e => h (BitVec.eq_of_toNat_eq e)
    have := t.isLt
    split
    · rw [BitVec.toNat_sub, show (1 : Byte).toNat = 1 from rfl]; omega
    · rfl

/-! ### Fetch -/

theorem fetch_of_fetchable (s : State) (h : fetchable s.pc = true) :
    fetch s = some (wordOfBytes (s.mem.read s.pc.toNat) (s.mem.read (s.pc.toNat + 1))) := by
  simp [fetch, h]

theorem fetch_of_not_fetchable (s : State) (h : fetchable s.pc = false) : fetch s = none := by
  simp [fetch, h]

theorem fetchable_iff (pc : Word) : fetchable pc = true ↔ pc.toNat % 2 = 0 ∧ pc.toNat ≤ 0xFFE := by
  simp [fetchable]

end Sys2Proof.Machine
end

