-- ==== Sys2Proof/Laws/Boot.lean ====
section
/-! SUPPORT. What placing a word and launching an image do (notes/assumptions/13.md, 70_reset_and_hazards.md R222). -/

namespace Sys2Proof.Machine

theorem readyToFetch_fetchable (s : State) : fetchable s.readyToFetch.pc = true := by
  unfold State.readyToFetch
  generalize (if s.run then s else { s with run := true, cause := .none, info := 0 }) = t
  show fetchable (if fetchable t.pc then t else t.setPc Config.programOrigin).pc = true
  split
  · assumption
  · show fetchable Config.programOrigin = true
    decide

theorem readyToFetch_run (s : State) : s.readyToFetch.run = true := by
  have key (t : State) (h : t.run = true) :
      (if fetchable t.pc then t else t.setPc Config.programOrigin).run = true := by
    split
    · exact h
    · exact h
  unfold State.readyToFetch
  apply key
  split
  · assumption
  · rfl

/-- A state that can fetch is left as it is. -/
theorem readyToFetch_of_fetchable (s : State) (hr : s.run = true) (h : fetchable s.pc = true) :
    s.readyToFetch = s := by
  simp only [State.readyToFetch, hr, if_true, h]

theorem tableWord_toNat (w : Word) : tableWord 16 w.toNat = w := by
  apply BitVec.eq_of_toNat_eq
  have := w.isLt
  rw [tableWord, BitVec.toNat_ofNat]; omega

/-- A launch with a font of an image that fits. -/
theorem launch_of_fits (font : Vector Byte Config.fontSize) (image : List Byte) (h : image.length ≤ 3584) :
    State.launch font image = .next ((State.resetWith font).setMem
      ((State.resetWith font).mem.writeBytes Config.programOrigin.toNat image)) := by
  have hf : imageFits image = true := decide_eq_true h
  simp only [State.launch, hf, if_true]

theorem launch_of_tooLong (font : Vector Byte Config.fontSize) (image : List Byte) (h : ¬ image.length ≤ 3584) :
    State.launch font image = .refused (.imageTooLong image.length) := by
  have hf : imageFits image = false := decide_eq_false h
  simp only [State.launch, hf, Bool.false_eq_true, if_false]

/-- A launch with nothing to load is the reset (R222, L = 0). -/
theorem launch_nil (font : Vector Byte Config.fontSize) : State.launch font [] = .next (State.resetWith font) := rfl

end Sys2Proof.Machine
end

