-- ==== Sys2Proof/Laws/Decode.lean ====
section
/-! SUPPORT. The fields of a word, as numbers and as parts of a word put together (30_encoding.md R72). -/

namespace Sys2Proof

theorem fieldOp_toNat (w : Word) : (fieldOp w).toNat = w.toNat / 4096 := by
  have := w.isLt
  simp only [fieldOp, BitVec.extractLsb'_toNat, Nat.shiftRight_eq_div_pow]; omega

theorem fieldX_val (w : Word) : (fieldX w).val = w.toNat / 256 % 16 := by
  show (w.extractLsb' 8 4).toNat = _
  simp only [BitVec.extractLsb'_toNat, Nat.shiftRight_eq_div_pow]

theorem fieldY_val (w : Word) : (fieldY w).val = w.toNat / 16 % 16 := by
  show (w.extractLsb' 4 4).toNat = _
  simp only [BitVec.extractLsb'_toNat, Nat.shiftRight_eq_div_pow]

theorem fieldN_toNat (w : Word) : (fieldN w).toNat = w.toNat % 16 := by
  simp only [fieldN, BitVec.extractLsb'_toNat, Nat.shiftRight_eq_div_pow]; omega

theorem fieldKK_toNat (w : Word) : (fieldKK w).toNat = w.toNat % 256 := by
  simp only [fieldKK, BitVec.extractLsb'_toNat, Nat.shiftRight_eq_div_pow]; omega

theorem fieldNNN_toNat (w : Word) : (fieldNNN w).toNat = w.toNat % 4096 := by
  simp only [fieldNNN, BitVec.extractLsb'_toNat, Nat.shiftRight_eq_div_pow]; omega

theorem wordA_toNat (op : Nibble) (nnn : Lit12) : (wordA op nnn).toNat = op.toNat * 4096 + nnn.toNat := by
  have := nnn.isLt
  simp only [wordA, BitVec.toNat_append]
  rw [← Nat.shiftLeft_add_eq_or_of_lt (by omega), Nat.shiftLeft_eq]

theorem wordXK_toNat (op : Nibble) (x : Reg) (kk : Byte) :
    (wordXK op x kk).toNat = op.toNat * 4096 + x.val * 256 + kk.toNat := by
  have h1 := kk.isLt
  have h2 := x.isLt
  have hx : (regBits x).toNat = x.val := rfl
  simp only [wordXK, BitVec.toNat_append, hx]
  rw [← Nat.shiftLeft_add_eq_or_of_lt (b := kk.toNat) (by omega), Nat.shiftLeft_eq x.val,
    ← Nat.shiftLeft_add_eq_or_of_lt (by omega), Nat.shiftLeft_eq]
  omega

theorem wordXYN_toNat (op : Nibble) (x y : Reg) (n : Nibble) :
    (wordXYN op x y n).toNat = op.toNat * 4096 + x.val * 256 + y.val * 16 + n.toNat := by
  have h1 := n.isLt
  have h2 := x.isLt
  have h3 := y.isLt
  have hx : (regBits x).toNat = x.val := rfl
  have hy : (regBits y).toNat = y.val := rfl
  simp only [wordXYN, BitVec.toNat_append, hx, hy]
  rw [← Nat.shiftLeft_add_eq_or_of_lt (b := n.toNat) (by omega), Nat.shiftLeft_eq y.val,
    ← Nat.shiftLeft_add_eq_or_of_lt (a := x.val) (by omega), Nat.shiftLeft_eq x.val,
    ← Nat.shiftLeft_add_eq_or_of_lt (by omega), Nat.shiftLeft_eq]
  omega

/-! Every word is the word of its fields, in each shape. -/

theorem word_eq_wordA (w : Word) : w = wordA (fieldOp w) (fieldNNN w) := by
  apply BitVec.eq_of_toNat_eq
  rw [wordA_toNat, fieldOp_toNat, fieldNNN_toNat]; omega

theorem word_eq_wordXK (w : Word) : w = wordXK (fieldOp w) (fieldX w) (fieldKK w) := by
  apply BitVec.eq_of_toNat_eq
  rw [wordXK_toNat, fieldOp_toNat, fieldX_val, fieldKK_toNat]; omega

theorem word_eq_wordXYN (w : Word) : w = wordXYN (fieldOp w) (fieldX w) (fieldY w) (fieldN w) := by
  apply BitVec.eq_of_toNat_eq
  rw [wordXYN_toNat, fieldOp_toNat, fieldX_val, fieldY_val, fieldN_toNat]; omega

/-! Fields of the three shapes of word. -/

section

variable (op n : Nibble) (nnn : Lit12) (x y : Reg) (kk : Byte)

@[simp] theorem fieldOp_wordA : fieldOp (wordA op nnn) = op := by
  apply BitVec.eq_of_toNat_eq; rw [fieldOp_toNat, wordA_toNat]; have := nnn.isLt; omega

@[simp] theorem fieldNNN_wordA : fieldNNN (wordA op nnn) = nnn := by
  apply BitVec.eq_of_toNat_eq; rw [fieldNNN_toNat, wordA_toNat]; have := nnn.isLt; omega

@[simp] theorem fieldOp_wordXK : fieldOp (wordXK op x kk) = op := by
  apply BitVec.eq_of_toNat_eq; rw [fieldOp_toNat, wordXK_toNat]; have := kk.isLt; have := x.isLt; omega

@[simp] theorem fieldX_wordXK : fieldX (wordXK op x kk) = x := by
  apply Fin.ext; rw [fieldX_val, wordXK_toNat]; have := kk.isLt; have := x.isLt; omega

@[simp] theorem fieldKK_wordXK : fieldKK (wordXK op x kk) = kk := by
  apply BitVec.eq_of_toNat_eq; rw [fieldKK_toNat, wordXK_toNat]; have := kk.isLt; omega

@[simp] theorem fieldOp_wordXYN : fieldOp (wordXYN op x y n) = op := by
  apply BitVec.eq_of_toNat_eq; rw [fieldOp_toNat, wordXYN_toNat]
  have := n.isLt; have := x.isLt; have := y.isLt; omega

@[simp] theorem fieldX_wordXYN : fieldX (wordXYN op x y n) = x := by
  apply Fin.ext; rw [fieldX_val, wordXYN_toNat]; have := n.isLt; have := x.isLt; have := y.isLt; omega

@[simp] theorem fieldY_wordXYN : fieldY (wordXYN op x y n) = y := by
  apply Fin.ext; rw [fieldY_val, wordXYN_toNat]; have := n.isLt; have := y.isLt; omega

@[simp] theorem fieldN_wordXYN : fieldN (wordXYN op x y n) = n := by
  apply BitVec.eq_of_toNat_eq; rw [fieldN_toNat, wordXYN_toNat]; have := n.isLt; omega

end

/-- The two bytes of a word, put together again, are the word (R54). -/
@[simp] theorem wordOfBytes_hi_lo (w : Word) : wordOfBytes (hiByte w) (loByte w) = w := by
  apply BitVec.eq_of_toNat_eq
  have := w.isLt
  simp only [wordOfBytes, hiByte, loByte, BitVec.toNat_append, BitVec.extractLsb'_toNat, Nat.shiftRight_eq_div_pow]
  rw [← Nat.shiftLeft_add_eq_or_of_lt (by omega), Nat.shiftLeft_eq]
  omega

/-- The word of two bytes as a number: the first byte is the high one (R54). -/
theorem wordOfBytes_toNat (hi lo : Byte) : (wordOfBytes hi lo).toNat = hi.toNat * 256 + lo.toNat := by
  have := lo.isLt
  simp only [wordOfBytes, BitVec.toNat_append]
  rw [← Nat.shiftLeft_add_eq_or_of_lt (by omega), Nat.shiftLeft_eq]

end Sys2Proof
end

