-- ==== Sys2Proof/Laws/Draw.lean ====
section
/-! SUPPORT. What the compositor does to each pixel and to the collision flag, step by step: one toggle, one sprite row,
a sprite (43_draw.md R142 to R145). -/

namespace Sys2Proof.Machine

theorem FrameBuffer.pixel_of_lt (fb : FrameBuffer) {r c : Nat} (hr : r < 32) (hc : c < 64) :
    fb.pixel r c = fb[r][c] := by simp [FrameBuffer.pixel, hr, hc]

/-- Two frame buffers with the same pixels are the same. -/
theorem FrameBuffer.ext_pixel {f g : FrameBuffer} (h : ∀ r c, r < 32 → c < 64 → f.pixel r c = g.pixel r c) : f = g := by
  apply Vector.ext; intro r hr
  apply Vector.ext; intro c hc
  simpa only [FrameBuffer.pixel_of_lt _ hr hc] using h r c hr hc

theorem Canvas.toggle_pixel (p : Canvas) (yy xx r c : Nat) :
    (p.toggle yy xx).fb.pixel r c =
      ((p.fb.pixel r c) ^^ decide (r = yy ∧ c = xx ∧ yy < 32 ∧ xx < 64)) := by
  unfold Canvas.toggle
  split
  · next h =>
    obtain ⟨hy, hx⟩ := h
    by_cases hr : r = yy
    · subst hr
      by_cases hc : c = xx
      · subst hc; simp [FrameBuffer.pixel, hy, hx]
      · by_cases hc' : c < 64
        · have hne : xx ≠ c := fun e => hc e.symm
          simp [FrameBuffer.pixel, hy, hc', hc, hne]
        · simp [FrameBuffer.pixel, hc', hc]
    · by_cases hb : r < 32 ∧ c < 64
      · have hne : yy ≠ r := fun e => hr e.symm
        simp [FrameBuffer.pixel, hb, hr, hne]
      · simp [FrameBuffer.pixel, hb, hr]
  · next h =>
    have : ¬ (r = yy ∧ c = xx ∧ yy < 32 ∧ xx < 64) := fun e => h e.2.2
    simp [this]

theorem Canvas.toggle_collision (p : Canvas) (yy xx : Nat) :
    (p.toggle yy xx).collision = (p.collision || p.fb.pixel yy xx) := by
  unfold Canvas.toggle FrameBuffer.pixel
  split <;> simp

/-- Whether the first n columns of sprite row b at row yy from column x0 hold a set bit on pixel (r, c). -/
def colBit (b : Byte) (yy x0 n r c : Nat) : Bool :=
  decide (r = yy ∧ r < 32 ∧ c < 64 ∧ x0 ≤ c ∧ c < x0 + n) && b.getLsbD (7 - (c - x0))

theorem Canvas.drawCols_pixel (p : Canvas) (b : Byte) (yy x0 n r c : Nat) :
    (p.drawCols b yy x0 n).fb.pixel r c = ((p.fb.pixel r c) ^^ colBit b yy x0 n r c) := by
  induction n with
  | zero =>
    have : ¬ (r = yy ∧ r < 32 ∧ c < 64 ∧ x0 ≤ c ∧ c < x0 + 0) := by omega
    simp only [Canvas.drawCols, colBit, decide_eq_false this, Bool.false_and, Bool.xor_false]
  | succ n ih =>
    simp only [Canvas.drawCols]
    have key : colBit b yy x0 (n + 1) r c =
        (colBit b yy x0 n r c ^^ (b.getLsbD (7 - n) && decide (r = yy ∧ c = x0 + n ∧ yy < 32 ∧ x0 + n < 64))) := by
      by_cases hc : c = x0 + n
      · subst hc
        have h1 : ¬ (r = yy ∧ r < 32 ∧ x0 + n < 64 ∧ x0 ≤ x0 + n ∧ x0 + n < x0 + n) := by omega
        have h2 : (r = yy ∧ r < 32 ∧ x0 + n < 64 ∧ x0 ≤ x0 + n ∧ x0 + n < x0 + (n + 1)) ↔
            (r = yy ∧ x0 + n = x0 + n ∧ yy < 32 ∧ x0 + n < 64) := by
          constructor
          · rintro ⟨rfl, h, h', _, _⟩; exact ⟨rfl, rfl, h, h'⟩
          · rintro ⟨rfl, _, h, h'⟩; exact ⟨rfl, h, h', by omega, by omega⟩
        simp only [colBit, decide_eq_decide.mpr h2, decide_eq_false h1, show x0 + n - x0 = n by omega,
          Bool.false_and, Bool.false_xor, Bool.and_comm]
      · have h1 : ¬ (r = yy ∧ c = x0 + n ∧ yy < 32 ∧ x0 + n < 64) := fun h => hc h.2.1
        have h2 : (r = yy ∧ r < 32 ∧ c < 64 ∧ x0 ≤ c ∧ c < x0 + (n + 1)) ↔
            (r = yy ∧ r < 32 ∧ c < 64 ∧ x0 ≤ c ∧ c < x0 + n) := by
          constructor
          · rintro ⟨a, b, d, e, f⟩; exact ⟨a, b, d, e, by omega⟩
          · rintro ⟨a, b, d, e, f⟩; exact ⟨a, b, d, e, by omega⟩
        simp only [colBit, decide_eq_false h1, decide_eq_decide.mpr h2, Bool.and_false, Bool.xor_false]
    rw [key]
    split
    · next h => rw [Canvas.toggle_pixel, ih, h, Bool.true_and, Bool.xor_assoc]
    · next h => rw [ih, Bool.eq_false_iff.mpr h, Bool.false_and, Bool.xor_false]

theorem Canvas.drawCols_collision (p : Canvas) (b : Byte) (yy x0 n : Nat) :
    (p.drawCols b yy x0 n).collision = true ↔
      p.collision = true ∨ ∃ k < n, b.getLsbD (7 - k) = true ∧ p.fb.pixel yy (x0 + k) = true := by
  induction n with
  | zero => simp [Canvas.drawCols]
  | succ n ih =>
    have old : (p.drawCols b yy x0 n).fb.pixel yy (x0 + n) = p.fb.pixel yy (x0 + n) := by
      rw [Canvas.drawCols_pixel]
      simp [colBit]
    simp only [Canvas.drawCols]
    split
    · next h =>
      rw [Canvas.toggle_collision, Bool.or_eq_true, ih, old]
      constructor
      · rintro ((h1 | ⟨k, hk, h1⟩) | h1)
        · exact .inl h1
        · exact .inr ⟨k, by omega, h1⟩
        · exact .inr ⟨n, by omega, h, h1⟩
      · rintro (h1 | ⟨k, hk, h1, h2⟩)
        · exact .inl (.inl h1)
        · rcases Nat.lt_succ_iff_lt_or_eq.mp hk with hk | rfl
          · exact .inl (.inr ⟨k, hk, h1, h2⟩)
          · exact .inr h2
    · next h =>
      rw [ih]
      constructor
      · rintro (h1 | ⟨k, hk, h1⟩)
        · exact .inl h1
        · exact .inr ⟨k, by omega, h1⟩
      · rintro (h1 | ⟨k, hk, h1, h2⟩)
        · exact .inl h1
        · rcases Nat.lt_succ_iff_lt_or_eq.mp hk with hk | rfl
          · exact .inr ⟨k, hk, h1, h2⟩
          · exact absurd h1 h

/-- Whether the first n rows of the sprite at base, placed from row y0 and column x0, hold a set bit on pixel (r, c). -/
def spriteBit (m : Memory) (base y0 x0 n r c : Nat) : Bool :=
  decide (r < 32 ∧ c < 64 ∧ y0 ≤ r ∧ r < y0 + n ∧ x0 ≤ c ∧ c < x0 + 8) &&
    (m.read (base + (r - y0))).getLsbD (7 - (c - x0))

theorem Canvas.drawRows_pixel (p : Canvas) (m : Memory) (base y0 x0 n r c : Nat) :
    (p.drawRows m base y0 x0 n).fb.pixel r c = ((p.fb.pixel r c) ^^ spriteBit m base y0 x0 n r c) := by
  induction n with
  | zero =>
    have : ¬ (r < 32 ∧ c < 64 ∧ y0 ≤ r ∧ r < y0 + 0 ∧ x0 ≤ c ∧ c < x0 + 8) := by omega
    simp only [Canvas.drawRows, spriteBit, decide_eq_false this, Bool.false_and, Bool.xor_false]
  | succ n ih =>
    simp only [Canvas.drawRows]
    have same (h : r ≠ y0 + n ∨ 32 ≤ r) : spriteBit m base y0 x0 (n + 1) r c = spriteBit m base y0 x0 n r c := by
      have e : (r < 32 ∧ c < 64 ∧ y0 ≤ r ∧ r < y0 + (n + 1) ∧ x0 ≤ c ∧ c < x0 + 8) ↔
          (r < 32 ∧ c < 64 ∧ y0 ≤ r ∧ r < y0 + n ∧ x0 ≤ c ∧ c < x0 + 8) := by
        constructor <;> (rintro ⟨h1, h2, h3, h4, h5⟩; exact ⟨h1, h2, h3, by omega, h5⟩)
      simp only [spriteBit, decide_eq_decide.mpr e]
    split
    · next hrow =>
      rw [Canvas.drawCols_pixel, ih]
      by_cases hr : r = y0 + n
      · subst hr
        have h1 : spriteBit m base y0 x0 n (y0 + n) c = false := by
          simp [spriteBit]
        have h2 : spriteBit m base y0 x0 (n + 1) (y0 + n) c =
            colBit (m.read (base + n)) (y0 + n) x0 8 (y0 + n) c := by
          simp [spriteBit, colBit, show y0 + n - y0 = n by omega]
        rw [h1, h2, Bool.xor_false]
      · rw [same (.inl hr)]
        have : colBit (m.read (base + n)) (y0 + n) x0 8 r c = false := by simp [colBit, hr]
        rw [this, Bool.xor_false]
    · next hrow =>
      rw [ih]
      by_cases hr : r = y0 + n
      · rw [same (.inr (by omega))]
      · rw [same (.inl hr)]

theorem Canvas.drawRows_collision (p : Canvas) (m : Memory) (base y0 x0 n : Nat) :
    (p.drawRows m base y0 x0 n).collision = true ↔
      p.collision = true ∨
        ∃ r c, spriteBit m base y0 x0 n r c = true ∧ p.fb.pixel r c = true := by
  induction n with
  | zero =>
    simp only [Canvas.drawRows, spriteBit, Nat.add_zero]
    constructor
    · exact .inl
    · rintro (h | ⟨r, c, h, -⟩)
      · exact h
      · simp only [Bool.and_eq_true, decide_eq_true_eq] at h; omega
  | succ n ih =>
    have mono (r c) (h : spriteBit m base y0 x0 n r c = true) : spriteBit m base y0 x0 (n + 1) r c = true := by
      simp only [spriteBit, Bool.and_eq_true, decide_eq_true_eq] at h ⊢
      exact ⟨by omega, h.2⟩
    have cut (r c) (h : spriteBit m base y0 x0 (n + 1) r c = true) :
        spriteBit m base y0 x0 n r c = true ∨ (r = y0 + n ∧ r < 32 ∧ c < 64 ∧ x0 ≤ c ∧ c < x0 + 8 ∧
          (m.read (base + n)).getLsbD (7 - (c - x0)) = true) := by
      simp only [spriteBit, Bool.and_eq_true, decide_eq_true_eq] at h ⊢
      by_cases hr : r = y0 + n
      · subst hr; right
        have : y0 + n - y0 = n := by omega
        rw [this] at h
        exact ⟨rfl, h.1.1, h.1.2.1, h.1.2.2.2.2.1, h.1.2.2.2.2.2, h.2⟩
      · left; exact ⟨by omega, h.2⟩
    simp only [Canvas.drawRows]
    split
    · next hrow =>
      rw [Canvas.drawCols_collision, ih]
      constructor
      · rintro ((h | ⟨r, c, h1, h2⟩) | ⟨k, hk, h1, h2⟩)
        · exact .inl h
        · exact .inr ⟨r, c, mono r c h1, h2⟩
        · rw [Canvas.drawRows_pixel] at h2
          have hz : spriteBit m base y0 x0 n (y0 + n) (x0 + k) = false := by simp [spriteBit]
          rw [hz, Bool.xor_false] at h2
          have hb : y0 + n < 32 ∧ x0 + k < 64 := by
            by_contra hb; simp [FrameBuffer.pixel, hb] at h2
          refine .inr ⟨y0 + n, x0 + k, ?_, h2⟩
          simp only [spriteBit, Bool.and_eq_true, decide_eq_true_eq, show y0 + n - y0 = n by omega,
            show x0 + k - x0 = k by omega]
          exact ⟨by omega, h1⟩
      · rintro (h | ⟨r, c, h1, h2⟩)
        · exact .inl (.inl h)
        · rcases cut r c h1 with h1 | ⟨rfl, hr, hc, hx, hx', hb⟩
          · exact .inl (.inr ⟨r, c, h1, h2⟩)
          · refine .inr ⟨c - x0, by omega, hb, ?_⟩
            rw [Canvas.drawRows_pixel, show x0 + (c - x0) = c by omega, h2]
            have hz : spriteBit m base y0 x0 n (y0 + n) c = false := by simp [spriteBit]
            simp [hz]
    · next hrow =>
      rw [ih]
      constructor
      · rintro (h | ⟨r, c, h1, h2⟩)
        · exact .inl h
        · exact .inr ⟨r, c, mono r c h1, h2⟩
      · rintro (h | ⟨r, c, h1, h2⟩)
        · exact .inl h
        · rcases cut r c h1 with h1 | ⟨rfl, hr, _⟩
          · exact .inr ⟨r, c, h1, h2⟩
          · omega

end Sys2Proof.Machine
end

