-- ==== Sys2Proof/Laws/Exec.lean ====
section
/-! SUPPORT. The equations of the instructions that check before their first effect: one for the check that passes, one
for the fatal condition. Every other meaning is one equation already, by definition. -/

namespace Sys2Proof.Machine

variable (s : State) (x y : Reg) (n : Nibble) (nnn : Lit12)

/-! ### Stack -/

theorem exec_call_of_lt (h : s.sp.val < 16) :
    exec (.call nnn) s = .next { s with
      sp := ⟨s.sp.val + 1, by omega⟩, stack := s.stack.set s.sp.val s.pc, pc := litAddr nnn } := by
  simp only [exec, execCall, State.push_of_lt s s.pc h, State.setPc]

theorem exec_call_of_full (h : s.sp.val = 16) : exec (.call nnn) s = .next (s.raise .stackFault 16) := by
  simp only [exec, execCall, State.push_of_full s s.pc (by omega), h]; rfl

theorem exec_ret_of_pos (h : 0 < s.sp.val) :
    exec .ret s = .next { s with sp := ⟨s.sp.val - 1, by omega⟩, pc := s.stack[s.sp.val - 1] + 2 } := by
  simp only [exec, execRet, State.pop_of_pos s h, State.setPc]

theorem exec_ret_of_empty (h : s.sp.val = 0) : exec .ret s = .next (s.raise .stackFault 0) := by
  simp only [exec, execRet, State.pop_of_empty s (by omega), h]; rfl

/-! ### Key numbers and digits -/

theorem exec_skp_of_le (h : s.v[x].toNat < 16) :
    exec (.skp x) s = .next (s.skipIf (s.keys.getLsbD s.v[x].toNat)) := by
  simp only [exec, execSkp, State.reg, nibbleOperand_of_le _ h, State.keyDown]

theorem exec_skp_of_gt (h : ¬ s.v[x].toNat < 16) :
    exec (.skp x) s = .next (s.raise .operandFault (BitVec.ofNat 16 s.v[x].toNat)) := by
  simp only [exec, execSkp, State.reg, nibbleOperand_of_gt _ h, zext16_eq]

theorem exec_sknp_of_le (h : s.v[x].toNat < 16) :
    exec (.sknp x) s = .next (s.skipIf (!s.keys.getLsbD s.v[x].toNat)) := by
  simp only [exec, execSknp, State.reg, nibbleOperand_of_le _ h, State.keyDown]

theorem exec_sknp_of_gt (h : ¬ s.v[x].toNat < 16) :
    exec (.sknp x) s = .next (s.raise .operandFault (BitVec.ofNat 16 s.v[x].toNat)) := by
  simp only [exec, execSknp, State.reg, nibbleOperand_of_gt _ h, zext16_eq]

theorem exec_ldFVx_of_le (h : s.v[x].toNat < 16) :
    exec (.ldFVx x) s = .next { s with i := BitVec.ofNat 16 (5 * s.v[x].toNat), pc := s.pc + 2 } := by
  simp only [exec, execLdFVx, State.reg, nibbleOperand_of_le _ h, glyphAddr, State.setI, State.advance, State.setPc]

theorem exec_ldFVx_of_gt (h : ¬ s.v[x].toNat < 16) :
    exec (.ldFVx x) s = .next (s.raise .operandFault (BitVec.ofNat 16 s.v[x].toNat)) := by
  simp only [exec, execLdFVx, State.reg, nibbleOperand_of_gt _ h, zext16_eq]

/-! ### Key wait -/

theorem exec_ldVxK_of_some {k : Fin 16} (h : s.leastKeyDown = some k) :
    exec (.ldVxK x) s = .next (s.setReg x (BitVec.ofNat 8 k.val)).advance := by
  simp only [exec, execLdVxK, h]

theorem exec_ldVxK_of_none (h : s.leastKeyDown = none) : exec (.ldVxK x) s = .next s := by
  simp only [exec, execLdVxK, h]

/-! ### Ranges from `I` -/

theorem exec_drw_of_none (h : rangeFault s.i n.toNat = none) :
    exec (.drw x y n) s = .next
      (((s.setFb (drawSprite s.fb s.mem s.i.toNat s.v[y].toNat s.v[x].toNat n.toNat).fb).setReg vf
        (flagByte (drawSprite s.fb s.mem s.i.toNat s.v[y].toNat s.v[x].toNat n.toNat).collision)).advance) := by
  simp only [exec, execDrw, h, State.reg]

theorem exec_drw_of_some {a : Word} (h : rangeFault s.i n.toNat = some a) :
    exec (.drw x y n) s = .next (s.raise .memFault a) := by
  simp only [exec, execDrw, h]

theorem exec_ldBVx_of_none (h : rangeFault s.i 3 = none) :
    exec (.ldBVx x) s = .next { s with
      mem := s.mem.writeBytes s.i.toNat (bcdDigits s.v[x]), pc := s.pc + 2 } := by
  simp only [exec, execLdBVx, h, State.reg, State.setMem, State.advance, State.setPc]

theorem exec_ldBVx_of_some {a : Word} (h : rangeFault s.i 3 = some a) :
    exec (.ldBVx x) s = .next (s.raise .memFault a) := by
  simp only [exec, execLdBVx, h]

theorem exec_ldMemVx_of_none (h : rangeFault s.i (x.val + 1) = none) :
    exec (.ldMemVx x) s = .next { s with
      mem := s.mem.writeBytes s.i.toNat (s.regsUpTo x), i := s.i + BitVec.ofNat 16 (x.val + 1), pc := s.pc + 2 } := by
  simp only [exec, execLdMemVx, h, State.setMem, State.setI, State.advance, State.setPc]

theorem exec_ldMemVx_of_some {a : Word} (h : rangeFault s.i (x.val + 1) = some a) :
    exec (.ldMemVx x) s = .next (s.raise .memFault a) := by
  simp only [exec, execLdMemVx, h]

theorem exec_ldVxMem_of_none (h : rangeFault s.i (x.val + 1) = none) :
    exec (.ldVxMem x) s = .next { s with
      v := s.loadRegsUpTo x, i := s.i + BitVec.ofNat 16 (x.val + 1), pc := s.pc + 2 } := by
  simp only [exec, execLdVxMem, h, State.setI, State.advance, State.setPc]

theorem exec_ldVxMem_of_some {a : Word} (h : rangeFault s.i (x.val + 1) = some a) :
    exec (.ldVxMem x) s = .next (s.raise .memFault a) := by
  simp only [exec, execLdVxMem, h]

end Sys2Proof.Machine
end

