-- ==== Sys2Proof/Laws/PerInstr.lean ====
section
/-! SUPPORT. Statements made of every instruction, one lemma per constructor: every instruction has its operands in the
ranges of its format (30_encoding.md R74, R81), so no ill-formed instruction can be written as an `Instr`. -/

namespace Sys2Proof.Laws

/-- What the family says of an instruction: its operands are in range. -/
def FieldsInRange.Statement (i : Instr) : Prop := i.wellFormed = true

theorem admits_a (o : RawOperands) (h : o.nnn < 4096) : Format.admits .a o = true := decide_eq_true h

theorem admits_x (o : RawOperands) (h : o.x < 16) : Format.admits .x o = true := decide_eq_true h

theorem admits_xk (o : RawOperands) (h : o.x < 16) (h' : o.kk < 256) : Format.admits .xk o = true :=
  Bool.and_eq_true_iff.mpr ⟨decide_eq_true h, decide_eq_true h'⟩

theorem admits_xy (o : RawOperands) (h : o.x < 16) (h' : o.y < 16) : Format.admits .xy o = true :=
  Bool.and_eq_true_iff.mpr ⟨decide_eq_true h, decide_eq_true h'⟩

theorem admits_xyn (o : RawOperands) (h : o.x < 16) (h' : o.y < 16) (h'' : o.n < 16) :
    Format.admits .xyn o = true :=
  Bool.and_eq_true_iff.mpr ⟨Bool.and_eq_true_iff.mpr ⟨decide_eq_true h, decide_eq_true h'⟩, decide_eq_true h''⟩

theorem FieldsInRange.halt : FieldsInRange.Statement .halt := rfl

theorem FieldsInRange.cls : FieldsInRange.Statement .cls := rfl

theorem FieldsInRange.ret : FieldsInRange.Statement .ret := rfl

theorem FieldsInRange.jp (nnn : Lit12) : FieldsInRange.Statement (.jp nnn) :=
  admits_a _ nnn.isLt

theorem FieldsInRange.call (nnn : Lit12) : FieldsInRange.Statement (.call nnn) :=
  admits_a _ nnn.isLt

theorem FieldsInRange.seImm (x : Reg) (kk : Byte) : FieldsInRange.Statement (.seImm x kk) :=
  admits_xk _ x.isLt kk.isLt

theorem FieldsInRange.sneImm (x : Reg) (kk : Byte) : FieldsInRange.Statement (.sneImm x kk) :=
  admits_xk _ x.isLt kk.isLt

theorem FieldsInRange.seReg (x y : Reg) : FieldsInRange.Statement (.seReg x y) :=
  admits_xy _ x.isLt y.isLt

theorem FieldsInRange.ldImm (x : Reg) (kk : Byte) : FieldsInRange.Statement (.ldImm x kk) :=
  admits_xk _ x.isLt kk.isLt

theorem FieldsInRange.addImm (x : Reg) (kk : Byte) : FieldsInRange.Statement (.addImm x kk) :=
  admits_xk _ x.isLt kk.isLt

theorem FieldsInRange.ldReg (x y : Reg) : FieldsInRange.Statement (.ldReg x y) :=
  admits_xy _ x.isLt y.isLt

theorem FieldsInRange.orReg (x y : Reg) : FieldsInRange.Statement (.orReg x y) :=
  admits_xy _ x.isLt y.isLt

theorem FieldsInRange.andReg (x y : Reg) : FieldsInRange.Statement (.andReg x y) :=
  admits_xy _ x.isLt y.isLt

theorem FieldsInRange.xorReg (x y : Reg) : FieldsInRange.Statement (.xorReg x y) :=
  admits_xy _ x.isLt y.isLt

theorem FieldsInRange.addReg (x y : Reg) : FieldsInRange.Statement (.addReg x y) :=
  admits_xy _ x.isLt y.isLt

theorem FieldsInRange.subReg (x y : Reg) : FieldsInRange.Statement (.subReg x y) :=
  admits_xy _ x.isLt y.isLt

theorem FieldsInRange.shrReg (x y : Reg) : FieldsInRange.Statement (.shrReg x y) :=
  admits_xy _ x.isLt y.isLt

theorem FieldsInRange.subnReg (x y : Reg) : FieldsInRange.Statement (.subnReg x y) :=
  admits_xy _ x.isLt y.isLt

theorem FieldsInRange.shlReg (x y : Reg) : FieldsInRange.Statement (.shlReg x y) :=
  admits_xy _ x.isLt y.isLt

theorem FieldsInRange.sneReg (x y : Reg) : FieldsInRange.Statement (.sneReg x y) :=
  admits_xy _ x.isLt y.isLt

theorem FieldsInRange.ldI (nnn : Lit12) : FieldsInRange.Statement (.ldI nnn) :=
  admits_a _ nnn.isLt

theorem FieldsInRange.jpV0 (nnn : Lit12) : FieldsInRange.Statement (.jpV0 nnn) :=
  admits_a _ nnn.isLt

theorem FieldsInRange.rnd (x : Reg) (kk : Byte) : FieldsInRange.Statement (.rnd x kk) :=
  admits_xk _ x.isLt kk.isLt

theorem FieldsInRange.drw (x y : Reg) (n : Nibble) : FieldsInRange.Statement (.drw x y n) :=
  admits_xyn _ x.isLt y.isLt n.isLt

theorem FieldsInRange.skp (x : Reg) : FieldsInRange.Statement (.skp x) :=
  admits_x _ x.isLt

theorem FieldsInRange.sknp (x : Reg) : FieldsInRange.Statement (.sknp x) :=
  admits_x _ x.isLt

theorem FieldsInRange.ldVxDt (x : Reg) : FieldsInRange.Statement (.ldVxDt x) :=
  admits_x _ x.isLt

theorem FieldsInRange.ldVxK (x : Reg) : FieldsInRange.Statement (.ldVxK x) :=
  admits_x _ x.isLt

theorem FieldsInRange.ldDtVx (x : Reg) : FieldsInRange.Statement (.ldDtVx x) :=
  admits_x _ x.isLt

theorem FieldsInRange.ldStVx (x : Reg) : FieldsInRange.Statement (.ldStVx x) :=
  admits_x _ x.isLt

theorem FieldsInRange.addIVx (x : Reg) : FieldsInRange.Statement (.addIVx x) :=
  admits_x _ x.isLt

theorem FieldsInRange.ldFVx (x : Reg) : FieldsInRange.Statement (.ldFVx x) :=
  admits_x _ x.isLt

theorem FieldsInRange.ldBVx (x : Reg) : FieldsInRange.Statement (.ldBVx x) :=
  admits_x _ x.isLt

theorem FieldsInRange.ldMemVx (x : Reg) : FieldsInRange.Statement (.ldMemVx x) :=
  admits_x _ x.isLt

theorem FieldsInRange.ldVxMem (x : Reg) : FieldsInRange.Statement (.ldVxMem x) :=
  admits_x _ x.isLt

end Sys2Proof.Laws
end

