-- ==== Sys2Proof/Laws/Step.lean ====
section
/-! SUPPORT. Everything one cycle can do (40_decode_dispatch.md R90), and the equations of its cases. -/

namespace Sys2Proof.Machine

theorem step_of_stopped {s : State} (h : s.run = false) : step s = .next s := by simp [step, h]

theorem step_of_no_fetch {s : State} (h : s.run = true) (hf : fetch s = none) :
    step s = .next (s.raise .fetchFault s.pc) := by simp [step, h, hf]

theorem step_of_unrecognised {s : State} {w : Word} {e : DecodeReject} (h : s.run = true) (hf : fetch s = some w)
    (hd : decodeWord w = .error e) : step s = .next (s.raise .decodeError w) := by simp [step, h, hf, hd]

theorem step_of_decoded {s t : State} {w : Word} {i : Instr} (h : s.run = true) (hf : fetch s = some w)
    (hd : decodeWord w = .ok i) (he : exec i s = .next t) : step s = .next t.finishCycle := by
  simp [step, h, hf, hd, he]

/-- The one inversion of a cycle: a next state comes about in one of four ways. -/
theorem step_cases {s t : State} (h : step s = .next t) :
    (s.run = false ∧ t = s) ∨
    (s.run = true ∧ fetch s = none ∧ t = s.raise .fetchFault s.pc) ∨
    (s.run = true ∧ ∃ w e, fetch s = some w ∧ decodeWord w = .error e ∧ t = s.raise .decodeError w) ∨
    (s.run = true ∧ ∃ w i u, fetch s = some w ∧ decodeWord w = .ok i ∧ exec i s = .next u ∧ t = u.finishCycle) := by
  cases hr : s.run with
  | false => rw [step_of_stopped hr] at h; exact .inl ⟨rfl, by simpa using h.symm⟩
  | true =>
    right
    cases hf : fetch s with
    | none => rw [step_of_no_fetch hr hf] at h; exact .inl ⟨rfl, rfl, by simpa using h.symm⟩
    | some w =>
      right
      cases hd : decodeWord w with
      | error e =>
        rw [step_of_unrecognised hr hf hd] at h
        exact .inl ⟨rfl, w, e, rfl, hd, by simpa using h.symm⟩
      | ok i =>
        right
        simp only [step, hr, hf, hd, if_true] at h
        cases he : exec i s with
        | next u => rw [he] at h; exact ⟨rfl, w, i, u, rfl, hd, he, by simpa using h.symm⟩
        | fault r => rw [he] at h; cases h
        | refused r => rw [he] at h; cases h

theorem finishCycle_of_stopped {s : State} (h : s.run = false) : s.finishCycle = s := by
  simp [State.finishCycle, h]

theorem finishCycle_of_running {s : State} (h : s.run = true) : s.finishCycle = s.timerTick.drawInputs := by
  simp [State.finishCycle, h]

end Sys2Proof.Machine
end

