-- ==== Sys2Proof/Tests/Slice0.lean ====
section
/-! SUPPORT. Tests. Every expected value is one of spec/95_test_vectors.md (S1 to T113, named in each comment), or a count
from the encoding tables of spec/30_encoding.md; then one witness for the hypotheses of each statement that has any. -/

open Sys2Proof Sys2Proof.Machine Sys2Proof.Claims

namespace Sys2Proof.Tests

/-! ### Helpers -/

/-- The reset state of the vectors: the default font, and no key, no tick and the random byte 0 as the first inputs
(95_test_vectors.md, conventions). -/
def start : State := (State.resetWith Config.defaultFont).withInputs 0 false 0

/-- The reset state with V1 = a, V2 = b, VF = f. -/
def regs (a b f : Byte) : State := ((start.setReg 1 a).setReg 2 b).setReg 15 f

/-- The reset state with V0 = a. -/
def v0 (a : Byte) : State := start.setReg 0 a

/-- Bytes placed in memory. -/
def put (s : State) (a : Nat) (bytes : List Byte) : State := s.setMem (s.mem.writeBytes a bytes)

/-- One cycle with a word placed at `pc`. -/
def go (w : Nat) (s : State) : Host.Outcome State Fault Refusal := step (s.withFetchWord 16 w)

/-- Whether an outcome is a next state with a property. -/
def sees (o : Host.Outcome State Fault Refusal) (p : State → Bool) : Bool :=
  match o with
  | .next t => p t
  | _ => false

/-- Whether a state has stopped with a cause and an `INFO`, at a `pc`. -/
def died (c : Cause) (info pc : Word) (t : State) : Bool :=
  !t.run && t.cause == c && t.info == info && t.pc == pc

/-- The first n pixels of a row, from a column, as the digits of a number. -/
def bits (fb : FrameBuffer) (r c : Nat) : Nat → Nat
  | 0 => 0
  | n + 1 => 2 * bits fb r c n + (fb.pixel r (c + n)).toNat

/-! ### Well-formedness: each check refuses an ill-formed term (30_encoding.md R81; 70_reset_and_hazards.md R222) -/

theorem test_wf_nnn : Format.admits .a { nnn := 4096 } = false ∧ Format.admits .a { nnn := 4095 } = true := by decide

theorem test_wf_x : Format.admits .x { x := 16 } = false ∧ Format.admits .x { x := 15 } = true := by decide

theorem test_wf_xk : Format.admits .xk { x := 16 } = false ∧ Format.admits .xk { kk := 256 } = false := by decide

theorem test_wf_xy : Format.admits .xy { x := 16 } = false ∧ Format.admits .xy { y := 16 } = false := by decide

theorem test_wf_xyn : Format.admits .xyn { x := 16 } = false ∧ Format.admits .xyn { y := 16 } = false ∧
    Format.admits .xyn { n := 16 } = false := by decide

theorem test_wf_image : imageFits (List.replicate 3585 0) = false ∧ imageFits (List.replicate 3584 0) = true :=
  ⟨decide_eq_false (by rw [List.length_replicate]; decide), decide_eq_true (by rw [List.length_replicate]; decide)⟩

/-- Cells out of order, one address twice, a cell equal to what it reads as unlisted, an address outside memory. -/
theorem test_wf_memory : Memory.wf ⟨Config.defaultFont, [(2, 1), (1, 1)]⟩ = false ∧
    Memory.wf ⟨Config.defaultFont, [(1, 1), (1, 2)]⟩ = false ∧ Memory.wf ⟨Config.defaultFont, [(0x300, 0)]⟩ = false ∧
    Memory.wf ⟨Config.defaultFont, [(0, 0xF0)]⟩ = false ∧ Memory.wf ⟨Config.defaultFont, [(4096, 1)]⟩ = false ∧
    Memory.wf ⟨Config.defaultFont, [(0, 1), (4095, 1)]⟩ = true := by decide

/-! ### Decoding: the words T2 and T1 write out bit by bit, the words T3 says are no instruction -/

theorem test_decode_group0 : decodeWord 0b0000000000000000 = .ok .halt ∧ decodeWord 0b0000000011100000 = .ok .cls ∧
    decodeWord 0b0000000011101110 = .ok .ret := by decide

theorem test_decode_jumps : decodeWord 0b0001101010111100 = .ok (.jp 0xABC) ∧
    decodeWord 0b0010101010111100 = .ok (.call 0xABC) ∧ decodeWord 0b1011001100000000 = .ok (.jpV0 0x300) := by decide

theorem test_decode_skips : decodeWord 0b0011101001111111 = .ok (.seImm 0xA 0x7F) ∧
    decodeWord 0b0100101001111111 = .ok (.sneImm 0xA 0x7F) ∧ decodeWord 0b0101000100100000 = .ok (.seReg 1 2) ∧
    decodeWord 0b1001000100100000 = .ok (.sneReg 1 2) := by decide

theorem test_decode_literals : decodeWord 0b0110001110010010 = .ok (.ldImm 3 0x92) ∧
    decodeWord 0b0111001100000001 = .ok (.addImm 3 1) ∧ decodeWord 0b1010001100000000 = .ok (.ldI 0x300) ∧
    decodeWord 0b1100000100001111 = .ok (.rnd 1 0x0F) := by decide

theorem test_decode_group8 : decodeWord 0b1000000100100000 = .ok (.ldReg 1 2) ∧
    decodeWord 0b1000000100100001 = .ok (.orReg 1 2) ∧ decodeWord 0b1000000100100010 = .ok (.andReg 1 2) ∧
    decodeWord 0b1000000100100011 = .ok (.xorReg 1 2) ∧ decodeWord 0b1000101010110100 = .ok (.addReg 0xA 0xB) := by
  decide

theorem test_decode_group8_more : decodeWord 0b1000000100100101 = .ok (.subReg 1 2) ∧
    decodeWord 0b1000000100100110 = .ok (.shrReg 1 2) ∧ decodeWord 0b1000000100100111 = .ok (.subnReg 1 2) ∧
    decodeWord 0b1000000100101110 = .ok (.shlReg 1 2) := by decide

theorem test_decode_draw_keys : decodeWord 0b1101000100100011 = .ok (.drw 1 2 3) ∧
    decodeWord 0b1110010110011110 = .ok (.skp 5) ∧ decodeWord 0b1110010110100001 = .ok (.sknp 5) ∧
    decodeWord 0b1111001000001010 = .ok (.ldVxK 2) := by decide

theorem test_decode_groupF : decodeWord 0b1111000100000111 = .ok (.ldVxDt 1) ∧
    decodeWord 0b1111000000010101 = .ok (.ldDtVx 0) ∧ decodeWord 0b1111000000011000 = .ok (.ldStVx 0) ∧
    decodeWord 0b1111000100011110 = .ok (.addIVx 1) := by decide

theorem test_decode_groupF_more : decodeWord 0b1111000000101001 = .ok (.ldFVx 0) ∧
    decodeWord 0b1111000000110011 = .ok (.ldBVx 0) ∧ decodeWord 0b1111001001010101 = .ok (.ldMemVx 2) ∧
    decodeWord 0b1111001001100101 = .ok (.ldVxMem 2) := by decide

/-- Two bytes stand in memory high byte first, and the table's word is laid out so (R54, S8). -/
theorem test_decode_bytes : decodeBytes [0x63, 0x92, 0xFF] = .ok (.ldImm 3 0x92, [0xFF]) ∧
    decodeTableWord 16 0x6392 = some (.ldImm 3 0x92) ∧ encodeBytes (.ldImm 3 0x92) = [0x63, 0x92] := by decide

/-- T3. -/
theorem test_unrecognised : [0x0001, 0x00E1, 0x00EF, 0x01E0, 0x0FFF, 0x00FF, 0x00C1, 0x5121, 0x512F, 0x8128, 0x812D,
    0x812F, 0x9121, 0xE000, 0xE19F, 0xE1A0, 0xF000, 0xF11F, 0xF175, 0xF1FF, 0xF085].all
      (fun w => decodeWord w == .error (.unrecognised w)) = true := by decide

/-! ### Arithmetic and register instructions -/

/-- T13, S8. -/
theorem test_ldImm : sees (go 0x6392 start) (fun t => t.v[3] == 0x92 && t.pc == 0x202) = true ∧
    sees (go 0x6F07 start) (fun t => t.v[15] == 7) = true := by decide

/-- S9, T14: wraps, no flag. -/
theorem test_addImm : sees (go 0x7301 (start.setReg 3 0xFF)) (fun t => t.v[3] == 0 && t.v[15] == 0) = true ∧
    sees (go 0x7F02 (regs 0 0 0xFF)) (fun t => t.v[15] == 1) = true := by decide

/-- T15. -/
theorem test_ldReg : sees (go 0x8120 (regs 0x11 0x22 0xAA)) (fun t => t.v[1] == 0x22 && t.v[15] == 0xAA) = true := by
  decide

/-- T16. -/
theorem test_orReg : sees (go 0x8121 (regs 0xCA 0x5C 0xAA)) (fun t => t.v[1] == 0xDE && t.v[15] == 0xAA) = true := by
  decide

/-- T16. -/
theorem test_andReg : sees (go 0x8122 (regs 0xCA 0x5C 0xAA)) (fun t => t.v[1] == 0x48 && t.v[15] == 0xAA) = true := by
  decide

/-- T16, T17. -/
theorem test_xorReg : sees (go 0x8123 (regs 0xCA 0x5C 0xAA)) (fun t => t.v[1] == 0x96 && t.v[15] == 0xAA) = true ∧
    sees (go 0x8113 (regs 0x80 0 0xAA)) (fun t => t.v[1] == 0 && t.v[15] == 0xAA) = true := by decide

/-- S10, T25, T30: V1 and VF after `ADD V1,V2`. -/
theorem test_addReg :
    sees (go 0x8AB4 ((start.setReg 0xA 0xFF).setReg 0xB 1)) (fun t => t.v[0xA] == 0 && t.v[15] == 1) = true ∧
    sees (go 0x8124 (regs 0x7F 0x80 0xAA)) (fun t => t.v[1] == 0xFF && t.v[15] == 0) = true ∧
    sees (go 0x8124 (regs 0x64 0x9C 0xAA)) (fun t => t.v[1] == 0 && t.v[15] == 1) = true := by decide

/-- T19: the old VF is an operand. -/
theorem test_addReg_vf_source : sees (go 0x81F4 (regs 0xFF 0 2)) (fun t => t.v[1] == 1 && t.v[15] == 1) = true := by
  decide

/-- T24, T26, T31. -/
theorem test_subReg : sees (go 0x8125 (regs 0x80 0x80 0xAA)) (fun t => t.v[1] == 0 && t.v[15] == 0) = true ∧
    sees (go 0x8125 (regs 5 1 0xAA)) (fun t => t.v[1] == 4 && t.v[15] == 1) = true ∧
    sees (go 0x8125 (regs 0 0xFF 0xAA)) (fun t => t.v[1] == 1 && t.v[15] == 0) = true := by decide

/-- T24, T26, T30: minuend V2, destination V1. -/
theorem test_subnReg : sees (go 0x8127 (regs 0x80 0x80 0xAA)) (fun t => t.v[1] == 0 && t.v[15] == 0) = true ∧
    sees (go 0x8127 (regs 5 1 0xAA)) (fun t => t.v[1] == 0xFC && t.v[15] == 0) = true ∧
    sees (go 0x8127 (regs 0x64 0x9C 0xAA)) (fun t => t.v[1] == 0x38 && t.v[15] == 1) = true := by decide

/-- T32, T33, T34, T35: both columns, for `ADD`, `SUB`, `SUBN` with destination VF. -/
theorem test_vf_dest_order :
    ((regs 0x20 0 0xF0).writeResultAndFlag .flagLast 15 (addWithCarry 0xF0 0x20)).v[15] = 0x01 ∧
    ((regs 0x20 0 0xF0).writeResultAndFlag .destLast 15 (addWithCarry 0xF0 0x20)).v[15] = 0x10 ∧
    ((regs 0x30 0 0x10).writeResultAndFlag .flagLast 15 (subWithNotBorrow 0x10 0x30)).v[15] = 0x00 ∧
    ((regs 0x30 0 0x10).writeResultAndFlag .destLast 15 (subWithNotBorrow 0x10 0x30)).v[15] = 0xE0 := by decide

/-- T39, T44, T47: the source is V2, the old V1 plays no part; with destination VF the shifted value stays. -/
theorem test_shrReg : sees (go 0x8126 (regs 0x33 0x7F 0xAA)) (fun t => t.v[1] == 0x3F && t.v[15] == 1) = true ∧
    sees (go 0x8FF6 (regs 0 0 0x81)) (fun t => t.v[15] == 0x40) = true := by decide

/-- T41, T48, T49. -/
theorem test_shlReg : sees (go 0x812E (regs 0x33 0x81 0xAA)) (fun t => t.v[1] == 2 && t.v[15] == 1) = true ∧
    sees (go 0x8F1E (regs 0x55 0 0x81)) (fun t => t.v[15] == 0xAA && t.v[1] == 0x55) = true ∧
    sees (go 0x81FE (regs 0x10 0 3)) (fun t => t.v[1] == 6 && t.v[15] == 0) = true := by decide

/-- T50. -/
theorem test_rnd : sees (go 0xC00F (start.withInputs 0 false 0xA7)) (fun t => t.v[0] == 7 && t.v[15] == 0) = true ∧
    sees (go 0xC055 (start.withInputs 0 false 0xFF)) (fun t => t.v[0] == 0x55) = true := by decide

/-! ### Control flow -/

/-- T6, T7: `HALT` at 0x200 from reset with nothing loaded; no timer tick. -/
theorem test_halt : sees (step start) (died .halt 0 0x200) = true ∧
    sees (step ((start.setDt 9).withInputs 0 true 0)) (fun t => died .halt 0 0x200 t && t.dt == 9) = true := by
  decide

/-- T51, T10: the odd target faults in the next cycle. -/
theorem test_jp : sees (go 0x1ABC start) (fun t => t.pc == 0xABC) = true ∧
    sees (go 0x1201 start) (fun t => t.pc == 0x201 && t.run && sees (step t) (died .fetchFault 0x201 0x201)) = true := by
  decide

/-- T57. -/
theorem test_call : sees (go 0x2300 start) (fun t => t.sp == 1 && t.stack[0] == 0x200 && t.pc == 0x300) = true := by
  decide

/-- T60 (the seventeenth call). -/
theorem test_call_full : sees (go 0x2222 { start with sp := 16, pc := 0x220 })
    (fun t => died .stackFault 0x10 0x220 t && t.sp == 16) = true := by decide

/-- T62, T58. -/
theorem test_ret : sees (go 0x00EE { start with sp := 16, pc := 0x220, stack := start.stack.set 15 0x21E })
    (fun t => t.pc == 0x220 && t.sp == 15 && t.stack[15] == 0x21E) = true := by decide

/-- T59. -/
theorem test_ret_empty : sees (go 0x00EE start) (died .stackFault 0 0x200) = true := by decide

/-- T52. -/
theorem test_seImm : sees (go 0x3142 (regs 0x42 0 0)) (fun t => t.pc == 0x204) = true ∧
    sees (go 0x3143 (regs 0x42 0 0)) (fun t => t.pc == 0x202) = true := by decide

/-- T53. -/
theorem test_sneImm : sees (go 0x4142 (regs 0x42 0 0)) (fun t => t.pc == 0x202) = true ∧
    sees (go 0x4143 (regs 0x42 0 0)) (fun t => t.pc == 0x204) = true := by decide

/-- T54. -/
theorem test_seReg : sees (go 0x5120 (regs 7 7 0)) (fun t => t.pc == 0x204) = true ∧
    sees (go 0x5120 (regs 7 8 0)) (fun t => t.pc == 0x202) = true := by decide

/-- T55. -/
theorem test_sneReg : sees (go 0x9120 (regs 7 8 0)) (fun t => t.pc == 0x204) = true ∧
    sees (go 0x9120 (regs 7 7 0)) (fun t => t.pc == 0x202) = true := by decide

/-- T63: nnn + V0, whatever `x` is; not reduced modulo 4096. -/
theorem test_jpV0 : sees (go 0xB3FE ((v0 0xFF).setReg 3 7)) (fun t => t.pc == 0x4FD) = true ∧
    sees (go 0xBFFF (v0 0xFF)) (fun t => t.pc == 0x10FE && sees (step t) (died .fetchFault 0x10FE 0x10FE)) = true := by
  decide

/-- T12: skips near the top of memory. -/
theorem test_skip_top : sees (go 0x3000 { start with pc := 0xFFE })
    (fun t => t.pc == 0x1002 && sees (step t) (died .fetchFault 0x1002 0x1002)) = true := by decide

/-! ### Draw -/

/-- T64. -/
theorem test_cls : sees (go 0x00E0 { regs 0 0 1 with fb := blankFb.set 31 (blankFb[31].set 63 true) })
    (fun t => bits t.fb 31 56 8 == 0 && t.v[15] == 1 && t.pc == 0x202) = true := by decide

/-- T70: the glyph of 0, row by row. -/
theorem test_drw_glyph : sees (go 0xD125 ((regs 0 0 0x55).setI 0)) (fun t =>
    bits t.fb 0 0 8 == 0xF0 && bits t.fb 1 0 8 == 0x90 && bits t.fb 4 0 8 == 0xF0 && bits t.fb 5 0 8 == 0 &&
    t.v[15] == 0) = true := by decide

/-- T79: a collision in row 0, none in row 1, and the flag is kept. -/
theorem test_drw_collision : sees (go 0xD122 { put ((regs 0 0 0).setI 0x300) 0x300 [0xC0, 0x03] with
    fb := (blankFb.set 0 (blankFb[0].set 1 true)).set 1 (blankFb[1].set 0 true) })
    (fun t => bits t.fb 0 0 8 == 0x80 && bits t.fb 1 0 8 == 0x83 && t.v[15] == 1) = true := by decide

/-- T72, T73: clipped on the right and at the bottom, never wrapped. -/
theorem test_drw_clip :
    sees (go 0xD121 (put ((regs 0x3C 0 1).setI 0x300) 0x300 [0xFF])) (fun t =>
      bits t.fb 0 56 8 == 0x0F && bits t.fb 0 0 4 == 0 && t.v[15] == 0) = true ∧
    sees (go 0xD121 (put ((regs 0x3F 0x1F 1).setI 0x300) 0x300 [0xFF])) (fun t =>
      bits t.fb 31 60 4 == 1 && bits t.fb 0 0 4 == 0) = true := by decide

/-- T74, T75: nothing is drawn from a start off the screen. -/
theorem test_drw_off_screen :
    sees (go 0xD121 (put ((regs 0x40 0 1).setI 0x300) 0x300 [0xFF])) (fun t =>
      bits t.fb 0 0 8 == 0 && t.v[15] == 0) = true ∧
    sees (go 0xD121 (put ((regs 0 0x20 1).setI 0x300) 0x300 [0xFF])) (fun t =>
      bits t.fb 0 0 8 == 0 && t.v[15] == 0) = true := by decide

/-- T83: the whole range is checked; n = 0 makes no access; `INFO` is max(I, 0x1000). -/
theorem test_drw_range : sees (go 0xD123 ((regs 0 0x1F 7).setI 0xFFE)) (fun t =>
      died .memFault 0x1000 0x200 t && t.v[15] == 7) = true ∧
    sees (go 0xD120 ((regs 0 0 7).setI 0x1000)) (fun t => t.run && t.v[15] == 0 && t.pc == 0x202) = true ∧
    sees (go 0xD121 ((regs 0 0 7).setI 0x1234)) (died .memFault 0x1234 0x200) = true := by decide

/-! ### Timers, keys, font, transfers, address register -/

/-- T90: the write, then the tick of the same cycle. -/
theorem test_ldDtVx : sees (go 0xF015 ((v0 5).withInputs 0 true 0)) (fun t => t.dt == 4) = true ∧
    sees (go 0xF015 ((v0 0).withInputs 0 true 0)) (fun t => t.dt == 0) = true := by decide

/-- T90. -/
theorem test_ldStVx : sees (go 0xF018 ((v0 0x1E).withInputs 0 true 0)) (fun t => t.st == 0x1D) = true ∧
    sees (go 0xF018 ((v0 0x1E).withInputs 0 false 0)) (fun t => t.st == 0x1E) = true := by decide

/-- T91: the read is before the tick. -/
theorem test_ldVxDt : sees (go 0xF107 (((start.setDt 0x3C).setSt 1).withInputs 0 true 0))
    (fun t => t.v[1] == 0x3C && t.dt == 0x3B && t.st == 0) = true := by decide

/-- T93, T94. -/
theorem test_skp : sees (go 0xE09E ((v0 0x0F).withInputs 0x8000 false 0)) (fun t => t.pc == 0x204) = true ∧
    sees (go 0xE09E ((v0 5).withInputs 0xFFDF false 0)) (fun t => t.pc == 0x202) = true ∧
    sees (go 0xE09E ((v0 0x10).withInputs 0xFFFF false 0)) (died .operandFault 0x10 0x200) = true := by decide

/-- T93, T94. -/
theorem test_sknp : sees (go 0xE0A1 ((v0 5).withInputs 0xFFDF false 0)) (fun t => t.pc == 0x204) = true ∧
    sees (go 0xE0A1 ((v0 5).withInputs 0x0020 false 0)) (fun t => t.pc == 0x202) = true ∧
    sees (go 0xE0A1 (v0 0xFF)) (died .operandFault 0xFF 0x200) = true := by decide

/-- T100, T101, T102. -/
theorem test_ldVxK : sees (go 0xF20A (regs 0 0x77 0)) (fun t => t.run && t.v[2] == 0x77 && t.pc == 0x200) = true ∧
    sees (go 0xF20A ((regs 0 0x77 0).withInputs 0x0088 false 0)) (fun t => t.v[2] == 3 && t.pc == 0x202) = true ∧
    sees (go 0xF20A ((regs 0 0x77 0).withInputs 0x8000 false 0)) (fun t => t.v[2] == 0x0F) = true := by decide

/-- T106. -/
theorem test_ldFVx : sees (go 0xF029 (v0 0x0F)) (fun t => t.i == 0x04B) = true ∧
    sees (go 0xF029 (v0 0x10)) (fun t => died .operandFault 0x10 0x200 t && t.i == 0x200) = true := by decide

/-- T107. -/
theorem test_ldBVx : sees (go 0xF033 ((v0 254).setI 0x300))
    (fun t => t.mem.readBytes 0x300 3 == [2, 5, 4] && t.i == 0x300) = true := by decide

/-- T108: no byte is written when the range passes 0xFFF. -/
theorem test_ldBVx_range :
    sees (go 0xF033 ((v0 123).setI 0xFFD)) (fun t => t.run && t.mem.readBytes 0xFFD 3 == [1, 2, 3]) = true ∧
    sees (go 0xF033 ((v0 123).setI 0xFFE)) (fun t =>
      died .memFault 0x1000 0x200 t && t.mem.readBytes 0xFFE 2 == [0, 0]) = true := by decide

/-- T109, T111. -/
theorem test_ldMemVx :
    sees (go 0xF355 { start with
      i := 0x300, v := #v[0x10, 0x11, 0x12, 0x13, 0x14, 0x15, 0x16, 0x17, 0x18, 0x19, 0x1A, 0x1B, 0x1C,
      0x1D, 0x1E, 0x1F] }) (fun t => t.mem.readBytes 0x300 5 == [0x10, 0x11, 0x12, 0x13, 0] && t.i == 0x304) = true ∧
    sees (go 0xFF55 ((v0 0xAB).setI 0xFF0)) (fun t => t.run && t.mem.read 0xFF0 == 0xAB && t.i == 0x1000) = true ∧
    sees (go 0xF155 ((v0 0xAB).setI 0xFFF)) (fun t =>
      died .memFault 0x1000 0x200 t && t.i == 0xFFF && t.mem.read 0xFFF == 0) = true := by decide

/-- T110, T111. -/
theorem test_ldVxMem :
    sees (go 0xF365 { put start 0x300 [0xA0, 0xA1, 0xA2, 0xA3, 0xA4] with
        v := Vector.replicate 16 0x11, i := 0x300 })
      (fun t => t.v.toList.take 5 == [0xA0, 0xA1, 0xA2, 0xA3, 0x11] && t.i == 0x304) = true ∧
    sees (go 0xF165 ((v0 0xAB).setI 0xFFF)) (fun t => died .memFault 0x1000 0x200 t && t.i == 0xFFF && t.v[0] == 0xAB) = true ∧
    sees (go 0xF065 ((v0 0xAB).setI 0x10FE)) (died .memFault 0x10FE 0x200) = true := by decide

/-- T112. -/
theorem test_ldI : sees (go 0xAFFF start) (fun t => t.i == 0xFFF && t.pc == 0x202) = true := by decide

/-- T113: held above 0xFFF, no flag; the 16-bit wrap. -/
theorem test_addIVx : sees (go 0xF11E ((regs 0xFF 0 9).setI 0x0FFF)) (fun t => t.i == 0x10FE && t.v[15] == 9) = true ∧
    sees (go 0xF11E ((regs 0xFF 0 9).setI 0xFF01)) (fun t => t.i == 0 && t.v[15] == 9) = true := by decide

/-! ### The cycle and the load -/

/-- T3: an unrecognised word. -/
theorem test_decode_error : sees (go 0xF0FF start) (died .decodeError 0xF0FF 0x200) = true := by decide

/-- T11: running off the top of memory; the address does not wrap. -/
theorem test_off_the_top : sees (go 0x6005 { start with pc := 0xFFE })
    (fun t => t.v[0] == 5 && t.pc == 0x1000 && t.run && sees (step t) (died .fetchFault 0x1000 0x1000)) = true := by decide

/-- T92: counters stop at zero. -/
theorem test_tick_saturates : sees (go 0x8000 (((start.setDt 1).setSt 0xFF).withInputs 0 true 0))
    (fun t => t.dt == 0 && t.st == 0xFE) = true ∧
    sees (go 0x8000 (start.withInputs 0 true 0)) (fun t => t.dt == 0 && t.st == 0) = true := by decide

/-- T123: the loaded image and the default font. -/
theorem test_launch : sees (State.launch Config.defaultFont [0x63, 0x92]) (fun t =>
    t.mem.readBytes 0x000 5 == [0xF0, 0x90, 0x90, 0x90, 0xF0] && t.mem.readBytes 0x04B 6 == [0xF0, 0x80, 0xF0, 0x80, 0x80, 0] &&
    t.mem.readBytes 0x1FF 5 == [0, 0x63, 0x92, 0, 0] && t.pc == 0x200 && t.i == 0x200) = true := by decide

/-- The state after `withFetchWord` differs in the two bytes at `pc` only (R54, notes/assumptions/13.md). -/
theorem test_withFetchWord : start.withFetchWord 16 0x6392 =
    { start with mem := { font := Config.defaultFont, cells := [(0x200, 0x63), (0x201, 0x92)] } } := by decide

/-! ### Witnesses: states and operands that meet the hypotheses of each statement that has any, each clause at a boundary -/

/-- A state with a word at `pc`. -/
def at_ (w : Nat) (s : State) : State := s.withFetchWord 16 w

theorem witness_EncodeOfDecodeIsTheWord : decodeWord 0x8AB4 = .ok (.addReg 0xA 0xB) := by decide

theorem witness_DecodeIsTheSingleMatchOfTheOpcodeMap :
    (∃ r ∈ opcodeMap, r.selects 0x8AB4) ∧ ∀ r ∈ opcodeMap, ¬ r.selects 0x8128 := by
  unfold Row.selects opcodeMap
  decide

theorem witness_UnrecognisedWordsAreThoseListed : listedUnrecognised 0x0001 ∧ ¬ listedUnrecognised 0x00E0 ∧
    listedUnrecognised 0x812F ∧ ¬ listedUnrecognised 0x812E := by
  unfold listedUnrecognised
  refine ⟨?_, ?_, ?_, ?_⟩ <;> decide

theorem witness_LaunchGivesTheResetState :
    (List.replicate 3584 (0 : Byte)).length ≤ 3584 ∧ (List.replicate 3585 (0 : Byte)).length > 3584 ∧
    0x50 ≤ 0x1FF ∧ 0x200 + 3584 - 1 ≤ 0xFFF := by
  simp only [List.length_replicate]
  decide

theorem witness_LaunchedStatesMeetTheInvariants : ∃ t, State.launch Config.font [0x63, 0x92] = .next t := ⟨_, rfl⟩

theorem witness_StoppedCoreDoesNothing : (State.reset.raise .halt 0).run = false := rfl

theorem witness_StepRunsTheDecodedInstruction :
    let s := at_ 0x6005 { State.reset with pc := 0xFFE }
    s.run = true ∧ s.pc.toNat % 2 = 0 ∧ s.pc.toNat ≤ 0xFFE ∧
    decodeBytes [s.mem.read s.pc.toNat, s.mem.read (s.pc.toNat + 1)] = .ok (.ldImm 0 5, []) ∧
    ∃ t, exec (.ldImm 0 5) s = .next t := ⟨rfl, by decide, by decide, by decide, _, rfl⟩

theorem witness_FetchReadsTheWordOrFaults :
    (0xFFE : Word).toNat % 2 = 0 ∧ (0xFFE : Word).toNat ≤ 0xFFE ∧ (0xFFF : Word).toNat % 2 = 1 ∧
    (0x1000 : Word).toNat > 0xFFE ∧ State.reset.run = true := by decide

theorem witness_UnrecognisedWordRaisesDecodeError :
    (at_ 0x0001 State.reset).run = true ∧ fetch (at_ 0x0001 State.reset) = some 0x0001 ∧
    listedUnrecognised (0x0001 : Word).toNat := by
  unfold listedUnrecognised
  decide

theorem witness_CycleCompletesOrRaisesOneFatalCondition : State.reset.run = true := rfl

theorem witness_InstructionsRaiseOnlyTheirCondition :
    fatalOf { State.reset with sp := 16 } (.call 0) = some (.stackFault, 16) ∧
    fatalOf { State.reset with sp := 15 } (.call 0) = none ∧ fatalOf State.reset .ret = some (.stackFault, 0) ∧
    fatalOf { State.reset with sp := 1 } .ret = none ∧
    fatalOf (State.reset.setI 0xFFE) (.drw 0 0 3) = some (.memFault, 0x1000) ∧
    fatalOf (State.reset.setI 0xFFD) (.drw 0 0 3) = none ∧ fatalOf (State.reset.setI 0x1000) (.drw 0 0 0) = none ∧
    fatalOf (State.reset.setI 0xFFE) (.ldBVx 0) = some (.memFault, 0x1000) ∧
    fatalOf (State.reset.setI 0xFFD) (.ldBVx 0) = none := by decide

theorem witness_InstructionsRaiseOnlyTheirCondition_more :
    fatalOf (State.reset.setI 0xFF1) (.ldMemVx 15) = some (.memFault, 0x1000) ∧
    fatalOf (State.reset.setI 0xFF0) (.ldMemVx 15) = none ∧
    fatalOf (State.reset.setI 0x1001) (.ldVxMem 0) = some (.memFault, 0x1001) ∧
    fatalOf (State.reset.setI 0xFFF) (.ldVxMem 0) = none ∧ fatalOf (v0 16) (.skp 0) = some (.operandFault, 16) ∧
    fatalOf (v0 15) (.skp 0) = none ∧ fatalOf (v0 16) (.sknp 0) = some (.operandFault, 16) ∧
    fatalOf (v0 15) (.sknp 0) = none ∧ fatalOf (v0 16) (.ldFVx 0) = some (.operandFault, 16) ∧
    fatalOf (v0 15) (.ldFVx 0) = none ∧ fatalOf State.reset .halt = some (.halt, 0) := by decide

theorem witness_TimersStepOnceInACompletedCycle :
    (∃ u, (at_ 0x6005 State.reset).run = true ∧ fetch (at_ 0x6005 State.reset) = some 0x6005 ∧
      decodeWord 0x6005 = .ok (.ldImm 0 5) ∧ exec (.ldImm 0 5) (at_ 0x6005 State.reset) = .next u ∧ u.run = true) ∧
    ∃ t, step State.reset = .next t ∧ t.run = false := ⟨⟨_, rfl, by decide, by decide, rfl, rfl⟩, _, rfl, rfl⟩

theorem witness_results_written_to_vf_or_not : (15 : Reg) = 15 ∧ (1 : Reg) ≠ 15 := by decide

theorem witness_RandomByteIsMaskedAndReachesNothingElse : usesRnd .cls = false := rfl

theorem witness_HaltStopsAtAnyPc : State.reset.run = true ∧ State.reset.pc.toNat % 2 = 0 ∧
    State.reset.pc.toNat ≤ 0xFFE ∧ State.reset.mem.read State.reset.pc.toNat = 0 ∧
    State.reset.mem.read (State.reset.pc.toNat + 1) = 0 := by decide

theorem witness_JumpsLoadTheTargetUnchecked : State.reset.run = true ∧ (0x201 : Lit12).toNat % 2 = 1 ∧
    (0xFFF : Lit12).toNat = 0xFFF ∧ (∃ t, exec (.jpV0 0xFFF) (v0 0xFF) = .next t ∧ t.pc.toNat > 0xFFE) ∧
    ∃ t, exec (.jpV0 0xFFF) (v0 2) = .next t ∧ t.pc.toNat % 2 = 1 :=
  ⟨rfl, by decide, by decide, ⟨_, rfl, by decide⟩, _, rfl, by decide⟩

theorem witness_CallPushesItsOwnAddress : ({ State.reset with sp := 15 } : State).sp.val < 16 ∧
    ({ State.reset with sp := 16 } : State).sp.val = 16 := by decide

theorem witness_ReturnPopsTheCallSite : ({ State.reset with sp := 1 } : State).sp.val = (0 : Fin 16).val + 1 ∧
    ({ State.reset with sp := 16 } : State).sp.val = (15 : Fin 16).val + 1 ∧ State.reset.sp.val = 0 := by decide

theorem witness_ReturnAfterCallResumesAfterTheCall : ({ State.reset with sp := 15 } : State).sp.val < 16 ∧
    ∃ t u : State, exec (.call 0x300) { State.reset with sp := 15 } = .next t ∧ u.sp = t.sp ∧ u.stack = t.stack ∧
      u.pc ≠ t.pc :=
  ⟨by decide, _, State.setPc _ 0x400, rfl, rfl, rfl, by decide⟩

theorem witness_DrawXorsTheClippedSpriteAndReportsCollision :
    InRange (State.reset.setI 0x1000) 0 ∧ InRange (State.reset.setI 0xFFD) 3 ∧ ¬ InRange (State.reset.setI 0xFFE) 3 ∧
    (spriteCovers (start.setI 0) 1 2 5 0 0 = true ∧
      ({ State.reset with fb := blankFb.set 0 (blankFb[0].set 0 true) } : State).fb[0][0] = true) ∧
    ¬ ∃ (r : Fin 32) (c : Fin 64), spriteCovers State.reset 1 2 0 r c = true ∧ State.reset.fb[r][c] = true := by
  refine ⟨by unfold InRange; decide, by unfold InRange; decide, by unfold InRange; decide, by decide, ?_⟩
  rintro ⟨r, c, -, h⟩
  simp [State.reset, State.resetWith] at h

theorem witness_IdenticalDrawRestoresEveryPixel :
    InRange (start.setI 0) 5 ∧
    (∀ (r : Fin 32) (c : Fin 64), spriteCovers (start.setI 0) 1 2 5 r c = true →
      (start.setI 0).fb[r][c] = false) ∧
    ∃ t, exec (.drw 1 2 5) (start.setI 0) = .next t ∧ t.v[1] = (start.setI 0).v[1] ∧
      t.v[2] = (start.setI 0).v[2] ∧ t.v[15] = 0 ∧ t.fb ≠ (start.setI 0).fb :=
  ⟨by unfold InRange; decide, fun r c _ => by simp [start, State.resetWith, State.withInputs, State.setI], _, rfl, by decide, by decide, by decide,
    by decide⟩

theorem witness_IdenticalDrawRestoresEveryPixel_unchanged :
    ∃ t, exec (.drw 1 2 0) State.reset = .next t ∧ t.fb = State.reset.fb ∧ t.v[1] = State.reset.v[1] := ⟨_, rfl, rfl, rfl⟩

theorem witness_KeySkipsTestTheKeyNumberedVx : (v0 15).v[0].toNat ≤ 15 ∧ (v0 16).v[0].toNat > 15 := by decide

theorem witness_KeyWaitTakesTheLeastKeyOrWaits : State.reset.keys = 0 ∧ (State.reset.withInputs 0x8000 false 0).keys ≠ 0 ∧
    (at_ 0xFF0A State.reset).run = true ∧ fetch (at_ 0xFF0A State.reset) = some (numXK 0xF 15 0x0A) ∧
    (at_ 0xFF0A State.reset).keys = 0 := by decide

theorem witness_FontAddressIsFiveTimesTheDigit : (v0 15).v[0].toNat ≤ 15 ∧ (v0 16).v[0].toNat > 15 := by decide

theorem witness_BcdStoresThreeDigits : (State.reset.setI 0xFFD).i.toNat + 2 ≤ 0xFFF ∧
    (State.reset.setI 0xFFE).i.toNat + 2 > 0xFFF := by decide

theorem witness_BlockStoreWritesVZeroToVx : (State.reset.setI 0xFF0).i.toNat + (15 : Reg).val ≤ 0xFFF ∧
    (State.reset.setI 0xFF1).i.toNat + (15 : Reg).val > 0xFFF := by decide

theorem witness_BlockLoadReadsVZeroToVx : (State.reset.setI 0xFFF).i.toNat + (0 : Reg).val ≤ 0xFFF ∧
    (State.reset.setI 0x1000).i.toNat + (0 : Reg).val > 0xFFF := by decide

theorem witness_CanonicalMemoriesThatReadAlikeAreEqual :
    let m := State.reset.mem.write 0x300 1
    let m' := (m.write 0x300 2).write 0x300 1
    m.wf = true ∧ m'.wf = true ∧ m.font = m'.font ∧ ∀ a, m.read a = m'.read a :=
  ⟨by decide, by decide, rfl, fun _ => rfl⟩

theorem witness_StoredBytesAreFetched : (14 : Reg).val + 1 < 16 ∧ (14 : Reg).val + 1 ≤ (15 : Reg).val ∧
    (State.reset.setI 0xFF0).i.toNat + (15 : Reg).val ≤ 0xFFF ∧
    ((State.reset.setI 0xFF0).i.toNat + (14 : Reg).val) % 2 = 0 := by decide

theorem witness_EachPartOfTheStateIsReachedOnlyByItsInstructions : usesI (.skp 0) = false ∧ usesStack (.jp 0) = false ∧
    usesDt (.ldStVx 0) = false ∧ usesSt (.ldDtVx 0) = false ∧ usesFb (.ldBVx 0) = false ∧ usesKeys (.ldFVx 0) = false ∧
    usesMem (.ldI 0) = false := by decide

theorem witness_NoInstructionWritesTheKeys : ∃ t, exec (.ldVxK 0) (State.reset.withInputs 2 false 0) = .next t := ⟨_, rfl⟩

theorem witness_VfIsWrittenOnlyByTheSixOrByName : State.reset.run = true ∧
    (∃ t, exec (.ldVxMem 14) State.reset = .next t ∧ t.run = true) ∧ flagWriter (.ldVxMem 14) = none ∧
    ¬ namesVf (.ldVxMem 14) ∧ flagWriter (.addReg 1 15) = some (some 1) ∧
    (∃ t, exec (.addReg 1 15) State.reset = .next t ∧ t.run = true) := by
  refine ⟨rfl, ⟨_, rfl, rfl⟩, rfl, ?_, rfl, ⟨_, rfl, rfl⟩⟩
  unfold namesVf
  decide

theorem witness_NextPcIsAsTabled : State.reset.run = true ∧
    (∃ t, exec .ret { State.reset with sp := 16 } = .next t ∧ t.run = true ∧ (15 : Fin 16).val + 1 = 16) ∧
    ∃ t, exec .ret State.reset = .next t ∧ t.run = false := ⟨rfl, ⟨_, rfl, rfl, rfl⟩, _, rfl, rfl⟩

theorem witness_CycleKeepsTheLatchesInAgreement : LatchesAgree State.reset ∧ ∃ t, step State.reset = .next t :=
  ⟨⟨fun _ => ⟨rfl, rfl⟩, fun h => by cases h⟩, _, rfl⟩

theorem witness_CycleKeepsPcBounded :
    let s : State := at_ 0xBFFF { v0 0xFF with sp := 1, pc := 0xFFE, stack := State.reset.stack.set 0 0xFFE }
    PcBounded s ∧ ∃ t, step s = .next t ∧ t.pc = 0x10FE := by
  refine ⟨⟨by decide, fun k hk => ?_⟩, _, rfl, by decide⟩
  have h0 : k = 0 := Fin.ext (Nat.lt_one_iff.mp hk)
  subst h0
  decide

theorem witness_CycleKeepsMemoryCanonical :
    MemoryCanonical (at_ 0xF055 (State.reset.setI 0x201)) ∧ ∃ t, step (at_ 0xF055 (State.reset.setI 0x201)) = .next t :=
  ⟨by unfold MemoryCanonical; decide, _, rfl⟩

theorem witness_SoundTimerInfluencesNothing : SameButSt State.reset (State.reset.setSt 5) := rfl

theorem witness_StaleStackSlotsAreNotObservable :
    SameButStale { State.reset with sp := 1 } { State.reset with sp := 1, stack := State.reset.stack.set 1 7 } := by
  refine ⟨rfl, fun k hk => ?_⟩
  have h0 : k = 0 := Fin.ext (Nat.lt_one_iff.mp hk)
  subst h0
  decide

theorem witness_EveryRunOfAnImageMeetsTheInvariants : ∃ t, State.launch Config.font [0x12, 0x00] = .next t := ⟨_, rfl⟩

theorem witness_PlacedWordIsFetchedNext : ({ State.reset with pc := 0xFFE } : State).run = true ∧
    ({ State.reset with pc := 0xFFE } : State).pc.toNat % 2 = 0 ∧
    ({ State.reset with pc := 0xFFE } : State).pc.toNat ≤ 0xFFE := by decide

end Sys2Proof.Tests
end

/-! What one cycle can do, said once for all 35 instructions: it raises one fatal condition on the state it began in, or
it completes in one of four ways. The latches, `pc` and the stack, and memory are each followed through these cases, and
an invariant of a cycle is carried over any number of them. -/

namespace Sys2Proof.Cycle

open Sys2Proof.Machine Sys2Proof.Claims

/-! ### What an instruction can do -/

/-- The state after a fatal condition raised before any effect (60_exceptions.md R197, R202). -/
def Raises (s t : State) : Prop := ∃ c info, c ≠ Cause.none ∧ t = s.raise c info

/-- The ways an instruction completes, by what it does to `pc` and the stack (10_state.md R26, R27). None of them writes
a latch or an input of the cycle. -/
inductive Completes (s : State) : State → Prop where
  /-- `pc` waits, advances or skips; registers, timers and pixels may change, and memory by one block of writes. -/
  | straight {t : State}
      (data : t = { s with
        v := t.v, i := t.i, pc := t.pc, dt := t.dt, st := t.st, fb := t.fb, mem := t.mem })
      (hpc : t.pc = s.pc ∨ t.pc = s.pc + 2 ∨ t.pc = s.pc + 4)
      (hmem : ∃ a vs, t.mem = s.mem.writeBytes a vs) : Completes s t
  /-- A jump: 0xFFF plus a byte at most (42_control_flow.md R121, R128). -/
  | jump {target : Word} (h : target.toNat ≤ 0x10FE) : Completes s (s.setPc target)
  /-- `CALL` with a free slot (R122). -/
  | call (nnn : Lit12) (h : s.sp.val < 16) : Completes s { s with
      sp := ⟨s.sp.val + 1, by omega⟩, stack := s.stack.set s.sp.val s.pc, pc := litAddr nnn }
  /-- `RET` with a live frame (R123). -/
  | ret (h : 0 < s.sp.val) : Completes s { s with
      sp := ⟨s.sp.val - 1, by omega⟩, pc := s.stack[s.sp.val - 1] + 2 }

variable {s t u : State}

/-- The default advance after a change of registers, timers and pixels only (40_decode_dispatch.md R96). -/
theorem Completes.advance (data : u = { s with v := u.v, i := u.i, dt := u.dt, st := u.st, fb := u.fb }) :
    Completes s u.advance := by
  rw [data]
  exact .straight rfl (.inr (.inl rfl)) ⟨0, [], rfl⟩

/-- A conditional skip (R124). -/
theorem Completes.skipIf (s : State) (c : Bool) : Completes s (s.skipIf c) := by
  refine .straight rfl (.inr ?_) ⟨0, [], rfl⟩
  cases c
  · exact .inl rfl
  · exact .inr rfl

/-- A result and its flag change registers only, under either order of the two writes (R100). -/
theorem writeResultAndFlag_eq_with_v (s : State) (order : VfDestOrder) (x : Reg) (rf : Byte × Byte) :
    s.writeResultAndFlag order x rf = { s with v := (s.writeResultAndFlag order x rf).v } := by
  unfold State.writeResultAndFlag
  split
  · cases order <;> rfl
  · rfl

theorem completes_writeResultAndFlag (s : State) (order : VfDestOrder) (x : Reg) (rf : Byte × Byte) :
    Completes s (s.writeResultAndFlag order x rf).advance := by
  rw [writeResultAndFlag_eq_with_v]
  exact .advance rfl

/-- A jump plus V0 stays below 0x10FF (R128). -/
theorem jpV0_target_le (nnn : Lit12) (b : Byte) : (litAddr nnn + zext16 b).toNat ≤ 0x10FE := by
  have := nnn.isLt
  have := b.isLt
  rw [BitVec.toNat_add, litAddr_toNat, zext16_toNat]
  omega

/-- The one inversion of `exec`: it always has a next state, and that state raises or completes. -/
theorem exec_cases (i : Instr) (s : State) : ∃ t, exec i s = .next t ∧ (Raises s t ∨ Completes s t) := by
  cases i with
  | halt => exact ⟨_, rfl, .inl ⟨.halt, 0, by decide, rfl⟩⟩
  | cls | ldImm _ _ | addImm _ _ | ldReg _ _ | orReg _ _ | andReg _ _ | xorReg _ _ | shrReg _ _ | shlReg _ _
  | ldI _ | rnd _ _ | ldVxDt _ | ldDtVx _ | ldStVx _ | addIVx _ => exact ⟨_, rfl, .inr (.advance rfl)⟩
  | addReg _ _ | subReg _ _ | subnReg _ _ => exact ⟨_, rfl, .inr (completes_writeResultAndFlag _ _ _ _)⟩
  | seImm _ _ | sneImm _ _ | seReg _ _ | sneReg _ _ => exact ⟨_, rfl, .inr (.skipIf _ _)⟩
  | jp nnn =>
    refine ⟨_, rfl, .inr (.jump ?_)⟩
    rw [litAddr_toNat]
    omega
  | jpV0 nnn => exact ⟨_, rfl, .inr (.jump (jpV0_target_le _ _))⟩
  | call nnn =>
    by_cases h : s.sp.val < 16
    · exact ⟨_, exec_call_of_lt s nnn h, .inr (.call nnn h)⟩
    · exact ⟨_, exec_call_of_full s nnn (by omega), .inl ⟨_, _, by decide, rfl⟩⟩
  | ret =>
    by_cases h : 0 < s.sp.val
    · exact ⟨_, exec_ret_of_pos s h, .inr (.ret h)⟩
    · exact ⟨_, exec_ret_of_empty s (by omega), .inl ⟨_, _, by decide, rfl⟩⟩
  | skp x =>
    by_cases h : s.v[x].toNat < 16
    · exact ⟨_, exec_skp_of_le s x h, .inr (.skipIf _ _)⟩
    · exact ⟨_, exec_skp_of_gt s x h, .inl ⟨_, _, by decide, rfl⟩⟩
  | sknp x =>
    by_cases h : s.v[x].toNat < 16
    · exact ⟨_, exec_sknp_of_le s x h, .inr (.skipIf _ _)⟩
    · exact ⟨_, exec_sknp_of_gt s x h, .inl ⟨_, _, by decide, rfl⟩⟩
  | ldFVx x =>
    by_cases h : s.v[x].toNat < 16
    · exact ⟨_, exec_ldFVx_of_le s x h, .inr (.straight rfl (.inr (.inl rfl)) ⟨0, [], rfl⟩)⟩
    · exact ⟨_, exec_ldFVx_of_gt s x h, .inl ⟨_, _, by decide, rfl⟩⟩
  | ldVxK x =>
    cases h : s.leastKeyDown with
    | some k => exact ⟨_, exec_ldVxK_of_some s x h, .inr (.advance rfl)⟩
    | none => exact ⟨s, exec_ldVxK_of_none s x h, .inr (.straight rfl (.inl rfl) ⟨0, [], rfl⟩)⟩
  | drw x y n =>
    cases h : rangeFault s.i n.toNat with
    | some a => exact ⟨_, exec_drw_of_some s x y n h, .inl ⟨_, _, by decide, rfl⟩⟩
    | none => exact ⟨_, exec_drw_of_none s x y n h, .inr (.advance rfl)⟩
  | ldBVx x =>
    cases h : rangeFault s.i 3 with
    | some a => exact ⟨_, exec_ldBVx_of_some s x h, .inl ⟨_, _, by decide, rfl⟩⟩
    | none => exact ⟨_, exec_ldBVx_of_none s x h, .inr (.straight rfl (.inr (.inl rfl)) ⟨_, _, rfl⟩)⟩
  | ldMemVx x =>
    cases h : rangeFault s.i (x.val + 1) with
    | some a => exact ⟨_, exec_ldMemVx_of_some s x h, .inl ⟨_, _, by decide, rfl⟩⟩
    | none => exact ⟨_, exec_ldMemVx_of_none s x h, .inr (.straight rfl (.inr (.inl rfl)) ⟨_, _, rfl⟩)⟩
  | ldVxMem x =>
    cases h : rangeFault s.i (x.val + 1) with
    | some a => exact ⟨_, exec_ldVxMem_of_some s x h, .inl ⟨_, _, by decide, rfl⟩⟩
    | none => exact ⟨_, exec_ldVxMem_of_none s x h, .inr (.straight rfl (.inr (.inl rfl)) ⟨0, [], rfl⟩)⟩

/-! ### What a completed instruction keeps -/

theorem Completes.latches (h : Completes s t) : t.run = s.run ∧ t.cause = s.cause ∧ t.info = s.info := by
  cases h with
  | straight data hpc hmem =>
    exact ⟨(congrArg State.run data :), (congrArg State.cause data :), (congrArg State.info data :)⟩
  | jump _ | call _ _ | ret _ => exact ⟨rfl, rfl, rfl⟩

theorem Completes.mem_eq_writeBytes (h : Completes s t) : ∃ a vs, t.mem = s.mem.writeBytes a vs := by
  cases h with
  | straight data hpc hmem => exact hmem
  | jump _ | call _ _ | ret _ => exact ⟨0, [], rfl⟩

theorem Completes.memoryCanonical (h : Completes s t) (hs : MemoryCanonical s) : MemoryCanonical t := by
  obtain ⟨a, vs, hmem⟩ := h.mem_eq_writeBytes
  unfold MemoryCanonical
  rw [hmem]
  exact Memory.wf_writeBytes a vs hs

/-- An instruction fetched at an even address of at most 0xFFE keeps the bound: `CALL` pushes that address, and `RET`
resumes 2 above one pushed earlier. -/
theorem Completes.pcBounded (h : Completes s t) (hf : fetchable s.pc = true) (hs : PcBounded s) : PcBounded t := by
  obtain ⟨heven, hle⟩ := (fetchable_iff s.pc).mp hf
  obtain ⟨-, hstack⟩ := hs
  cases h with
  | straight data hpc hmem =>
    have hsp : t.sp = s.sp := (congrArg State.sp data :)
    have hst : t.stack = s.stack := (congrArg State.stack data :)
    refine ⟨?_, by rw [hsp, hst]; exact hstack⟩
    rcases hpc with hpc | hpc | hpc <;> rw [hpc] <;> bv_omega
  | jump htarget => exact ⟨htarget, hstack⟩
  | call nnn hsp =>
    refine ⟨?_, fun k hk => ?_⟩
    · show (litAddr nnn).toNat ≤ 0x10FE
      rw [litAddr_toNat]
      omega
    · show (s.stack.set s.sp.val s.pc)[k.val].toNat ≤ 0xFFE ∧ (s.stack.set s.sp.val s.pc)[k.val].toNat % 2 = 0
      replace hk : k.val < s.sp.val + 1 := hk
      by_cases htop : s.sp.val = k.val
      · simp only [htop, Vector.getElem_set_self]
        exact ⟨hle, heven⟩
      · rw [Vector.getElem_set_ne _ _ htop]
        exact hstack k (by omega)
  | ret hpos =>
    obtain ⟨htop, -⟩ := hstack ⟨s.sp.val - 1, by omega⟩ (by show s.sp.val - 1 < s.sp.val; omega)
    refine ⟨?_, fun k hk => hstack k ?_⟩
    · replace htop : s.stack[s.sp.val - 1].toNat ≤ 0xFFE := htop
      show (s.stack[s.sp.val - 1] + 2).toNat ≤ 0x10FE
      bv_omega
    · replace hk : k.val < s.sp.val - 1 := hk
      omega

/-! ### What a cycle can do -/

/-- The three kinds of cycle (40_decode_dispatch.md R90, R97): of a stopped core, one that raises, one that completes
and ends with the timer tick and the next cycle's inputs. -/
inductive CycleResult (s : State) : State → Prop where
  | stopped (hrun : s.run = false) : CycleResult s s
  | raised {t : State} (hrun : s.run = true) (h : Raises s t) : CycleResult s t
  | completed {u : State} (hrun : s.run = true) (hf : fetchable s.pc = true) (h : Completes s u) :
      CycleResult s u.timerTick.drawInputs

/-- The end of a cycle after execute, in both ways an instruction can end. -/
theorem cycleResult_finishCycle (hrun : s.run = true) (hf : fetchable s.pc = true)
    (h : Raises s u ∨ Completes s u) : CycleResult s u.finishCycle := by
  rcases h with hraise | hdone
  · have hu : u.run = false := by
      obtain ⟨c, info, -, rfl⟩ := hraise
      rfl
    rw [finishCycle_of_stopped hu]
    exact .raised hrun hraise
  · obtain ⟨hlatch, -, -⟩ := hdone.latches
    rw [finishCycle_of_running (hlatch.trans hrun)]
    exact .completed hrun hf hdone

/-- Every cycle has a next state, of one of the three kinds. -/
theorem step_next_cycleResult (s : State) : ∃ t, step s = .next t ∧ CycleResult s t := by
  cases hrun : s.run with
  | false => exact ⟨s, step_of_stopped hrun, .stopped hrun⟩
  | true =>
    cases hf : fetchable s.pc with
    | false =>
      exact ⟨_, step_of_no_fetch hrun (fetch_of_not_fetchable s hf), .raised hrun ⟨_, _, by decide, rfl⟩⟩
    | true =>
      have hw := fetch_of_fetchable s hf
      cases hd : decodeWord (wordOfBytes (s.mem.read s.pc.toNat) (s.mem.read (s.pc.toNat + 1))) with
      | error e => exact ⟨_, step_of_unrecognised hrun hw hd, .raised hrun ⟨_, _, by decide, rfl⟩⟩
      | ok i =>
        obtain ⟨u, he, hu⟩ := exec_cases i s
        exact ⟨_, step_of_decoded hrun hw hd he, cycleResult_finishCycle hrun hf hu⟩

theorem cycleResult_of_step (h : step s = .next t) : CycleResult s t := by
  obtain ⟨t', h', hr⟩ := step_next_cycleResult s
  rw [h] at h'
  cases h'
  exact hr

/-! ### The invariants of a cycle -/

theorem CycleResult.latchesAgree (h : CycleResult s t) (hs : LatchesAgree s) : LatchesAgree t := by
  cases h with
  | stopped _ => exact hs
  | raised _ hraise =>
    obtain ⟨c, info, hc, rfl⟩ := hraise
    exact ⟨fun hrun => by simp at hrun, fun _ => hc⟩
  | completed _ _ hdone =>
    obtain ⟨hrun, hcause, hinfo⟩ := hdone.latches
    simpa [LatchesAgree, hrun, hcause, hinfo] using hs

theorem CycleResult.pcBounded (h : CycleResult s t) (hs : PcBounded s) : PcBounded t := by
  cases h with
  | stopped _ => exact hs
  | raised _ hraise =>
    obtain ⟨c, info, -, rfl⟩ := hraise
    exact hs
  | completed _ hf hdone => exact hdone.pcBounded hf hs

theorem CycleResult.memoryCanonical (h : CycleResult s t) (hs : MemoryCanonical s) : MemoryCanonical t := by
  cases h with
  | stopped _ => exact hs
  | raised _ hraise =>
    obtain ⟨c, info, -, rfl⟩ := hraise
    exact hs
  | completed _ _ hdone => exact hdone.memoryCanonical hs

/-! ### Runs -/

theorem run_succ_of_step (M : Host.Core) {a b : M.State} (n : Nat) (h : M.step a = .next b) :
    M.run (n + 1) a = M.run n b := by
  simp only [Host.Core.run, h]

theorem cycles_succ (n : Nat) (h : step s = .next t) : cycles (n + 1) s = cycles n t :=
  run_succ_of_step Sys2Proof.core n h

/-- A run of any length has a state at its end, with whatever every cycle keeps. -/
theorem cycles_next_of_invariant {P : State → Prop} (hP : ∀ s t, CycleResult s t → P s → P t) (n : Nat) (hs : P s) :
    ∃ t, cycles n s = .next t ∧ P t := by
  induction n generalizing s with
  | zero => exact ⟨s, rfl, hs⟩
  | succ n ih =>
    obtain ⟨t, hstep, hr⟩ := step_next_cycleResult s
    rw [cycles_succ n hstep]
    exact ih (hP s t hr hs)

/-- The three invariants of 10_state.md R26, R32 and of the model's memory form together. -/
def Invariants (s : State) : Prop := LatchesAgree s ∧ PcBounded s ∧ MemoryCanonical s

theorem CycleResult.invariants (h : CycleResult s t) : Invariants s → Invariants t := fun ⟨hl, hp, hm⟩ =>
  ⟨h.latchesAgree hl, h.pcBounded hp, h.memoryCanonical hm⟩

/-- A launched state meets the invariants: it runs, at 0x200 with an empty stack, and its memory is the reset memory
after one block of writes (70_reset_and_hazards.md R222). -/
theorem launch_invariants {font : Vector Byte Config.fontSize} {image : List Byte}
    (h : State.launch font image = .next s) : Invariants s := by
  by_cases hfit : image.length ≤ 3584
  · rw [launch_of_fits font image hfit] at h
    cases h
    refine ⟨⟨fun _ => ⟨rfl, rfl⟩, fun hrun => by simp at hrun⟩, ⟨?_, fun k hk => ?_⟩, ?_⟩
    · show Config.programOrigin.toNat ≤ 0x10FE
      decide
    · exact absurd hk (Nat.not_lt_zero _)
    · exact Memory.wf_writeBytes _ _ (Memory.wf_nil font)
  · rw [launch_of_tooLong font image hfit] at h
    cases h

/-- The host's move before the first cycle reaches none of the three invariants. -/
theorem withInputs_invariants (keys : Word) (tick : Bool) (rnd : Byte) (h : Invariants s) :
    Invariants (s.withInputs keys tick rnd) := h

end Sys2Proof.Cycle

/-- Settles O12, by the three kinds of cycle: a running core's cycle raises before any effect, or completes with the
latches as they were. -/
theorem cycleCompletesOrRaisesOneFatalCondition : Obligations.CycleCompletesOrRaisesOneFatalCondition := by
  unfold Obligations.CycleCompletesOrRaisesOneFatalCondition
  intro s hrun
  obtain ⟨t, hstep, hr⟩ := Sys2Proof.Cycle.step_next_cycleResult s
  refine ⟨t, hstep, ?_⟩
  cases hr with
  | stopped hstop => rw [hrun] at hstop; cases hstop
  | raised _ hraise =>
    obtain ⟨c, info, hc, rfl⟩ := hraise
    exact .inr ⟨hc, rfl⟩
  | completed _ _ hdone =>
    obtain ⟨hlatch, hcause, hinfo⟩ := hdone.latches
    exact .inl ⟨hlatch.trans hrun, hcause, hinfo⟩

/-- Settles O50, by induction on the number of cycles: a launch meets the three invariants, and every kind of cycle
keeps them. -/
theorem everyRunOfAnImageMeetsTheInvariants : Obligations.EveryRunOfAnImageMeetsTheInvariants := by
  unfold Obligations.EveryRunOfAnImageMeetsTheInvariants
  intro font image s keys tick rnd n hlaunch
  have hstart := Sys2Proof.Cycle.withInputs_invariants keys tick rnd (Sys2Proof.Cycle.launch_invariants hlaunch)
  exact Sys2Proof.Cycle.cycles_next_of_invariant (fun _ _ h => h.invariants) n hstart

/-- Settles O46, by the three kinds of cycle: only a completed one moves `pc` or the stack, and it was fetched at an
even address of at most 0xFFE. -/
theorem cycleKeepsPcBounded : Obligations.CycleKeepsPcBounded := by
  unfold Obligations.CycleKeepsPcBounded
  intro s t hs hstep
  exact (Sys2Proof.Cycle.cycleResult_of_step hstep).pcBounded hs

/-- Settles O45, by the three kinds of cycle: only one that raises writes a latch, and it writes a cause. -/
theorem cycleKeepsTheLatchesInAgreement : Obligations.CycleKeepsTheLatchesInAgreement := by
  unfold Obligations.CycleKeepsTheLatchesInAgreement
  intro s t hs hstep
  exact (Sys2Proof.Cycle.cycleResult_of_step hstep).latchesAgree hs

/-- Settles O7: the reset state is the launch of no image, and every launched state meets the three invariants. -/
theorem launchedStatesMeetTheInvariants : Obligations.LaunchedStatesMeetTheInvariants := by
  unfold Obligations.LaunchedStatesMeetTheInvariants
  obtain ⟨hlatch, hpc, hmem⟩ :=
    Sys2Proof.Cycle.launch_invariants (Sys2Proof.Machine.launch_nil Sys2Proof.Config.font)
  exact ⟨hlatch, hpc, hmem, fun _ _ _ h => Sys2Proof.Cycle.launch_invariants h⟩

/-! Which parts of the state each instruction reaches, said once for all 35 instructions: every part that 10_state.md
does not list for an instruction may be replaced before it or after it, with one and the same result. -/

namespace Sys2Proof.Parts

open Sys2Proof.Machine Sys2Proof.Claims

/-- A state with every part that an instruction is not listed for taken from a donor (10_state.md R24 to R30,
20_memory.md R50, 41_arithmetic_register.md R112); registers, `pc` and latches are its own. -/
def overlay (i : Instr) (donor s : State) : State :=
  { s with
    i := if usesI i then s.i else donor.i
    sp := if usesStack i then s.sp else donor.sp
    stack := if usesStack i then s.stack else donor.stack
    dt := if usesDt i then s.dt else donor.dt
    st := if usesSt i then s.st else donor.st
    fb := if usesFb i then s.fb else donor.fb
    keys := if usesKeys i then s.keys else donor.keys
    mem := if usesMem i then s.mem else donor.mem
    tick := donor.tick
    rnd := if usesRnd i then s.rnd else donor.rnd
    draws := donor.draws }

@[simp] theorem overlay_self (i : Instr) (s : State) : overlay i s s = s := by
  simp [overlay]

/-- `f` commutes with the two writes of R100, which read nothing but the order and the destination. -/
theorem writeResultAndFlag_comm {f : State → State} (hf : ∀ s x b, (f s).setReg x b = f (s.setReg x b))
    (s : State) (order : VfDestOrder) (x : Reg) (rf : Byte × Byte) :
    (f s).writeResultAndFlag order x rf = f (s.writeResultAndFlag order x rf) := by
  unfold State.writeResultAndFlag
  split
  · cases order <;> exact hf _ _ _
  · rw [hf, hf]

/-- The parts that `DRW` is not listed for, written out: comparing two draws must not evaluate the sprite. -/
theorem overlay_drw (x y : Reg) (n : Nibble) (donor : State) : overlay (.drw x y n) donor = fun s =>
    { s with sp := donor.sp, stack := donor.stack, dt := donor.dt, st := donor.st, keys := donor.keys,
             tick := donor.tick, rnd := donor.rnd, draws := donor.draws } := rfl

/-- The one case analysis: an instruction is indifferent to every part it is not listed for, all at once. -/
theorem exec_overlay (i : Instr) (donor s : State) :
    exec i (overlay i donor s) = mapNext (overlay i donor) (exec i s) := by
  cases i with
  | halt | cls | jp _ | jpV0 _ | seImm _ _ | sneImm _ _ | seReg _ _ | sneReg _ _ | ldImm _ _ | addImm _ _ | ldReg _ _
  | orReg _ _ | andReg _ _ | xorReg _ _ | shrReg _ _ | shlReg _ _ | ldI _ | rnd _ _ | ldVxDt _ | ldDtVx _ | ldStVx _
  | addIVx _ => rfl
  | addReg x y | subReg x y | subnReg x y =>
    exact congrArg (fun t : State => Host.Outcome.next t.advance)
      (writeResultAndFlag_comm (fun _ _ _ => rfl) s Config.vfDestOrder x _)
  | call nnn =>
    by_cases h : s.sp.val < 16
    · rw [exec_call_of_lt s nnn h]
      exact exec_call_of_lt (overlay (.call nnn) donor s) nnn h
    · have hfull : s.sp.val = 16 := by omega
      rw [exec_call_of_full s nnn hfull]
      exact exec_call_of_full _ nnn hfull
  | ret =>
    by_cases h : 0 < s.sp.val
    · rw [exec_ret_of_pos s h]
      exact exec_ret_of_pos (overlay .ret donor s) h
    · have hempty : s.sp.val = 0 := by omega
      rw [exec_ret_of_empty s hempty]
      exact exec_ret_of_empty _ hempty
  | skp x =>
    by_cases h : s.v[x].toNat < 16
    · rw [exec_skp_of_le s x h]
      exact exec_skp_of_le _ x h
    · rw [exec_skp_of_gt s x h]
      exact exec_skp_of_gt _ x h
  | sknp x =>
    by_cases h : s.v[x].toNat < 16
    · rw [exec_sknp_of_le s x h]
      exact exec_sknp_of_le _ x h
    · rw [exec_sknp_of_gt s x h]
      exact exec_sknp_of_gt _ x h
  | ldFVx x =>
    by_cases h : s.v[x].toNat < 16
    · rw [exec_ldFVx_of_le s x h]
      exact exec_ldFVx_of_le _ x h
    · rw [exec_ldFVx_of_gt s x h]
      exact exec_ldFVx_of_gt _ x h
  | ldVxK x =>
    cases h : s.leastKeyDown with
    | some k =>
      rw [exec_ldVxK_of_some s x h]
      exact exec_ldVxK_of_some _ x h
    | none =>
      rw [exec_ldVxK_of_none s x h]
      exact exec_ldVxK_of_none _ x h
  | drw x y n =>
    rw [overlay_drw]
    cases h : rangeFault s.i n.toNat with
    | some a =>
      rw [exec_drw_of_some s x y n h]
      exact exec_drw_of_some _ x y n h
    | none =>
      rw [exec_drw_of_none s x y n h]
      exact exec_drw_of_none _ x y n h
  | ldBVx x =>
    cases h : rangeFault s.i 3 with
    | some a =>
      rw [exec_ldBVx_of_some s x h]
      exact exec_ldBVx_of_some _ x h
    | none =>
      rw [exec_ldBVx_of_none s x h]
      exact exec_ldBVx_of_none _ x h
  | ldMemVx x =>
    cases h : rangeFault s.i (x.val + 1) with
    | some a =>
      rw [exec_ldMemVx_of_some s x h]
      exact exec_ldMemVx_of_some _ x h
    | none =>
      rw [exec_ldMemVx_of_none s x h]
      exact exec_ldMemVx_of_none _ x h
  | ldVxMem x =>
    cases h : rangeFault s.i (x.val + 1) with
    | some a =>
      rw [exec_ldVxMem_of_some s x h]
      exact exec_ldVxMem_of_some _ x h
    | none =>
      rw [exec_ldVxMem_of_none s x h]
      exact exec_ldVxMem_of_none _ x h

/-- What an instruction is not listed for it leaves as it was. -/
theorem overlay_of_exec {i : Instr} {s t : State} (h : exec i s = .next t) : overlay i s t = t := by
  have hself := exec_overlay i s s
  rw [overlay_self, h] at hself
  exact (Host.Outcome.next.inj hself).symm

/-- A replacement that the overlay of its own result carries out is one the instruction is indifferent to. -/
theorem indifferent_of_overlay {i : Instr} {put : State → State} (hpre : ∀ s, overlay i (put s) s = put s)
    (hpost : ∀ s t, overlay i (put s) t = put (overlay i s t)) : Indifferent i put := by
  intro s
  obtain ⟨t, ht, -⟩ := Sys2Proof.Cycle.exec_cases i s
  have h := exec_overlay i (put s) s
  rw [hpre, ht] at h
  rw [h, ht]
  exact congrArg Host.Outcome.next ((hpost s t).trans (congrArg put (overlay_of_exec ht)))

end Sys2Proof.Parts

/-- Settles O41: each clause replaces one part of the state, and the overlay of an instruction that is not listed for
that part replaces it too. -/
theorem eachPartOfTheStateIsReachedOnlyByItsInstructions :
    Obligations.EachPartOfTheStateIsReachedOnlyByItsInstructions := by
  unfold Obligations.EachPartOfTheStateIsReachedOnlyByItsInstructions
  intro i
  refine ⟨fun h w => ?_, fun h n k => ?_, fun h b => ?_, fun h b => ?_, fun h f => ?_, fun h w => ?_, fun h m => ?_,
    fun b n => ?_⟩
  all_goals
    refine Sys2Proof.Parts.indifferent_of_overlay (fun s => ?_) (fun s t => ?_)
    · simp [Sys2Proof.Parts.overlay, *]
    · simp [Sys2Proof.Parts.overlay, *]

/-- Settles O42: raising writes no keys, and none of the four ways to complete does. -/
theorem noInstructionWritesTheKeys : Obligations.NoInstructionWritesTheKeys := by
  unfold Obligations.NoInstructionWritesTheKeys
  intro i s t h
  obtain ⟨t', ht', hcases⟩ := Sys2Proof.Cycle.exec_cases i s
  obtain rfl := Host.Outcome.next.inj (h.symm.trans ht')
  rcases hcases with ⟨c, info, -, rfl⟩ | hdone
  · rfl
  · cases hdone with
    | straight data _ _ => exact (congrArg Sys2Proof.Machine.State.keys data :)
    | jump _ | call _ _ | ret _ => rfl

/-! Two runs side by side: a relation between states that agree on what a cycle reads to choose its instruction, and
that raising, executing and ending a cycle keep, holds after any number of cycles. The stack slots above `SP`
(10_state.md R27) are followed so. -/

namespace Sys2Proof.TwoRuns

open Sys2Proof.Machine Sys2Proof.Claims

/-- What it takes for a relation to be kept by a cycle (40_decode_dispatch.md R90): the two states run alike and fetch
alike, and each phase of the cycle keeps it. -/
structure Simulation (R : State → State → Prop) : Prop where
  run : ∀ {s s'}, R s s' → s'.run = s.run
  pc : ∀ {s s'}, R s s' → s'.pc = s.pc
  mem : ∀ {s s'}, R s s' → s'.mem = s.mem
  raise : ∀ {s s'} c info, R s s' → R (s.raise c info) (s'.raise c info)
  exec : ∀ {s s'} i, R s s' → ∃ u u', exec i s = .next u ∧ exec i s' = .next u' ∧ R u u'
  tick : ∀ {s s'}, R s s' → R s.timerTick.drawInputs s'.timerTick.drawInputs

variable {R : State → State → Prop} {s s' : State}

theorem Simulation.fetch (sim : Simulation R) (h : R s s') : fetch s' = fetch s := by
  unfold Machine.fetch
  rw [sim.pc h, sim.mem h]

theorem Simulation.finishCycle (sim : Simulation R) (h : R s s') : R s.finishCycle s'.finishCycle := by
  have hrun' := sim.run h
  cases hrun : s.run with
  | false => rwa [finishCycle_of_stopped hrun, finishCycle_of_stopped (hrun'.trans hrun)]
  | true =>
    rw [finishCycle_of_running hrun, finishCycle_of_running (hrun'.trans hrun)]
    exact sim.tick h

/-- One cycle, by the four ways it can go. -/
theorem Simulation.step (sim : Simulation R) (h : R s s') :
    ∃ t t', step s = .next t ∧ step s' = .next t' ∧ R t t' := by
  have hrun' := sim.run h
  have hfetch' := sim.fetch h
  cases hrun : s.run with
  | false => exact ⟨s, s', step_of_stopped hrun, step_of_stopped (hrun'.trans hrun), h⟩
  | true =>
    rw [hrun] at hrun'
    cases hf : Machine.fetch s with
    | none =>
      have hfault := step_of_no_fetch hrun' (hfetch'.trans hf)
      rw [sim.pc h] at hfault
      exact ⟨_, _, step_of_no_fetch hrun hf, hfault, sim.raise _ _ h⟩
    | some w =>
      rw [hf] at hfetch'
      cases hd : decodeWord w with
      | error e =>
        exact ⟨_, _, step_of_unrecognised hrun hf hd, step_of_unrecognised hrun' hfetch' hd, sim.raise _ _ h⟩
      | ok i =>
        obtain ⟨u, u', hu, hu', hR⟩ := sim.exec i h
        exact ⟨_, _, step_of_decoded hrun hf hd hu, step_of_decoded hrun' hfetch' hd hu', sim.finishCycle hR⟩

/-- Any number of cycles. -/
theorem Simulation.cycles (sim : Simulation R) (n : Nat) (h : R s s') :
    ∃ t t', cycles n s = .next t ∧ cycles n s' = .next t' ∧ R t t' := by
  induction n generalizing s s' with
  | zero => exact ⟨s, s', rfl, rfl, h⟩
  | succ n ih =>
    obtain ⟨t, t', hstep, hstep', hR⟩ := sim.step h
    rw [Cycle.cycles_succ n hstep, Cycle.cycles_succ n hstep']
    exact ih hR

/-! ### Stale stack slots -/

/-- Another stack with the same live slots. -/
theorem sameButStale_iff : SameButStale s s' ↔
    ∃ k : Vector Word 16, s' = { s with stack := k } ∧ ∀ j : Fin 16, j.val < s.sp.val → k[j] = s.stack[j] := by
  constructor
  · rintro ⟨hs', hlive⟩
    exact ⟨s'.stack, hs', hlive⟩
  · rintro ⟨k, rfl, hlive⟩
    exact ⟨rfl, hlive⟩

/-- An instruction that is not listed for the stack leaves its depth and its slots, and does not read them. -/
theorem exec_with_stack {i : Instr} (hi : usesStack i = false) (s : State) (k : Vector Word 16) :
    ∃ t, exec i s = .next t ∧ t.sp = s.sp ∧ t.stack = s.stack ∧
      exec i { s with stack := k } = .next { t with stack := k } := by
  obtain ⟨t, ht, -⟩ := Cycle.exec_cases i s
  have hkeep := Parts.overlay_of_exec ht
  have hsp : t.sp = s.sp := by simpa [Parts.overlay, hi] using (congrArg State.sp hkeep).symm
  have hstack : t.stack = s.stack := by simpa [Parts.overlay, hi] using (congrArg State.stack hkeep).symm
  refine ⟨t, ht, hsp, hstack, ?_⟩
  obtain ⟨-, hindiff, -⟩ := eachPartOfTheStateIsReachedOnlyByItsInstructions i
  have hput := hindiff hi s.sp k s
  rw [ht] at hput
  rw [hput, ← hsp]
  rfl

/-- `CALL` writes the slot that becomes live, and `RET` reads a live one; no other instruction reaches the stack. -/
theorem exec_sameButStale (i : Instr) (h : SameButStale s s') :
    ∃ u u', exec i s = .next u ∧ exec i s' = .next u' ∧ SameButStale u u' := by
  obtain ⟨k, rfl, hlive⟩ := sameButStale_iff.mp h
  cases hi : usesStack i with
  | false =>
    obtain ⟨t, ht, hsp, hstack, ht'⟩ := exec_with_stack hi s k
    exact ⟨t, _, ht, ht', rfl, by rw [hsp, hstack]; exact hlive⟩
  | true =>
    cases i with
    | call nnn =>
      by_cases hsp : s.sp.val < 16
      · refine ⟨_, _, exec_call_of_lt s nnn hsp, exec_call_of_lt { s with stack := k } nnn hsp, rfl,
          fun j hj => ?_⟩
        show (k.set s.sp.val s.pc)[j.val] = (s.stack.set s.sp.val s.pc)[j.val]
        replace hj : j.val < s.sp.val + 1 := hj
        by_cases htop : s.sp.val = j.val
        · simp only [htop, Vector.getElem_set_self]
        · rw [Vector.getElem_set_ne _ _ htop, Vector.getElem_set_ne _ _ htop]
          exact hlive j (by omega)
      · have hfull : s.sp.val = 16 := by omega
        exact ⟨_, _, exec_call_of_full s nnn hfull, exec_call_of_full { s with stack := k } nnn hfull, rfl, hlive⟩
    | ret =>
      by_cases hsp : 0 < s.sp.val
      · have htop : k[s.sp.val - 1] = s.stack[s.sp.val - 1] :=
          hlive ⟨s.sp.val - 1, by omega⟩ (Nat.sub_lt hsp Nat.one_pos)
        refine ⟨_, _, exec_ret_of_pos s hsp, exec_ret_of_pos { s with stack := k } hsp, ?_, fun j hj => hlive j ?_⟩
        · simp only [htop]
        · exact Nat.lt_of_lt_of_le hj (Nat.sub_le _ _)
      · have hempty : s.sp.val = 0 := by omega
        exact ⟨_, _, exec_ret_of_empty s hempty, exec_ret_of_empty { s with stack := k } hempty, rfl, hlive⟩
    | _ => cases hi

theorem simulation_sameButStale : Simulation SameButStale where
  run h := (congrArg State.run h.1 :)
  pc h := (congrArg State.pc h.1 :)
  mem h := (congrArg State.mem h.1 :)
  raise c info h := by
    obtain ⟨k, rfl, hlive⟩ := sameButStale_iff.mp h
    exact ⟨rfl, hlive⟩
  exec i h := exec_sameButStale i h
  tick h := by
    obtain ⟨k, rfl, hlive⟩ := sameButStale_iff.mp h
    exact ⟨rfl, hlive⟩

end Sys2Proof.TwoRuns

/-- Settles O49, by induction on the number of cycles: the relation is one that every phase of a cycle keeps. -/
theorem staleStackSlotsAreNotObservable : Obligations.StaleStackSlotsAreNotObservable := by
  unfold Obligations.StaleStackSlotsAreNotObservable
  intro n s s' h
  exact Sys2Proof.TwoRuns.simulation_sameButStale.cycles n h

/-! What an instruction leaves in VF (10_state.md R22) and in `pc` (R26) when it completes, for all 35 instructions. -/

namespace Sys2Proof.Effects

open Sys2Proof.Machine Sys2Proof.Claims

/-- VF as R22 lists its writers: unchanged but by the six flag writers and by name, and 0 or 1 as a flag. -/
def VfAsListed (i : Instr) (s t : State) : Prop :=
  (flagWriter i = none → ¬ namesVf i → t.v[15] = s.v[15]) ∧
    ∀ d, flagWriter i = some d → d ≠ some 15 → t.v[15] = 0 ∨ t.v[15] = 1

variable {i : Instr} {s t : State}

/-- An instruction that writes no register. -/
theorem vfAsListed_of_v_eq (hf : flagWriter i = none) (hv : t.v = s.v) : VfAsListed i s t := by
  refine ⟨fun _ _ => by rw [hv], fun d hd => ?_⟩
  rw [hf] at hd
  cases hd

/-- An instruction with one destination register and no flag. -/
theorem vfAsListed_setReg {x : Reg} (b : Byte) (hf : flagWriter i = none) (hx : namesVf i ↔ x = 15) :
    VfAsListed i s (s.setReg x b).advance := by
  refine ⟨fun _ hname => ?_, fun d hd => ?_⟩
  · have hne : (15 : Reg) ≠ x := fun h => hname (hx.mpr h.symm)
    have := State.reg_setReg s x 15 b
    rwa [if_neg hne] at this
  · rw [hf] at hd
    cases hd

/-- A flag writer that leaves 0 or 1 in VF unless VF is also its destination. -/
theorem vfAsListed_of_flag {d : Option Reg} (hf : flagWriter i = some d)
    (hflag : d ≠ some vf → t.reg vf = 0 ∨ t.reg vf = 1) : VfAsListed i s t := by
  refine ⟨fun hnone => (nomatch hf.symm.trans hnone), fun d' hd hne => ?_⟩
  obtain rfl := Option.some.inj (hf.symm.trans hd)
  exact hflag hne

theorem flagByte_eq_zero_or_one (b : Bool) : flagByte b = 0 ∨ flagByte b = 1 := by
  cases b
  · exact .inl rfl
  · exact .inr rfl

/-- A result in `Vx` and a flag in VF, under either order of the writes (41_arithmetic_register.md R100). -/
theorem vfAsListed_writeResultAndFlag {order : VfDestOrder} {x : Reg} {rf : Byte × Byte}
    (hf : flagWriter i = some (some x)) (hflag : rf.2 = 0 ∨ rf.2 = 1) :
    VfAsListed i s (s.writeResultAndFlag order x rf).advance := by
  refine vfAsListed_of_flag hf fun hne => ?_
  have hx : x ≠ vf := fun h => hne (congrArg some h)
  show (s.writeResultAndFlag order x rf).reg vf = 0 ∨ (s.writeResultAndFlag order x rf).reg vf = 1
  unfold State.writeResultAndFlag
  rwa [if_neg hx, State.reg_setReg_self]

/-- The shifts: the flag in VF, then the result in `Vx` (R109, R111). -/
theorem vfAsListed_writeFlagThenResult {x : Reg} {rf : Byte × Byte}
    (hf : flagWriter i = some (some x)) (hflag : rf.2 = 0 ∨ rf.2 = 1) :
    VfAsListed i s (s.writeFlagThenResult x rf).advance := by
  refine vfAsListed_of_flag hf fun hne => ?_
  have hx : vf ≠ x := fun h => hne (congrArg some h.symm)
  show (s.writeFlagThenResult x rf).reg vf = 0 ∨ (s.writeFlagThenResult x rf).reg vf = 1
  rwa [State.writeFlagThenResult, State.reg_setReg, if_neg hx, State.reg_setReg_self]

/-- A draw: the collision flag (43_draw.md R145). -/
theorem vfAsListed_drw {x y : Reg} {n : Nibble} (fb : FrameBuffer) (collision : Bool) :
    VfAsListed (.drw x y n) s ((s.setFb fb).setReg vf (flagByte collision)).advance := by
  refine vfAsListed_of_flag rfl fun _ => ?_
  show ((s.setFb fb).setReg vf (flagByte collision)).reg vf = 0 ∨
    ((s.setFb fb).setReg vf (flagByte collision)).reg vf = 1
  rw [State.reg_setReg_self]
  exact flagByte_eq_zero_or_one collision

/-- A block load up to a register below VF (44_timer_input_memory.md R170). -/
theorem vfAsListed_ldVxMem {x : Reg} (hv : t.v = s.loadRegsUpTo x) : VfAsListed (.ldVxMem x) s t := by
  refine ⟨fun _ hname => ?_, fun d hd => (nomatch hd)⟩
  have habove : ¬ (15 : Reg) ≤ x := fun h => hname (Fin.le_antisymm (Fin.le_last x) h)
  have hload := State.loadRegsUpTo_getElem s x 15
  rwa [if_neg habove, ← hv] at hload

theorem shiftRightOut_flag (b : Byte) : (shiftRightOut b).2 = 0 ∨ (shiftRightOut b).2 = 1 := by
  have h : (b &&& 1).toNat = b.toNat % 2 := by rw [BitVec.toNat_and]; exact Nat.and_one_is_mod _
  rcases Nat.mod_two_eq_zero_or_one b.toNat with h0 | h1
  · exact .inl (BitVec.eq_of_toNat_eq (h.trans h0))
  · exact .inr (BitVec.eq_of_toNat_eq (h.trans h1))

theorem shiftLeftOut_flag (b : Byte) : (shiftLeftOut b).2 = 0 ∨ (shiftLeftOut b).2 = 1 := by
  have hb := b.isLt
  have h : (b >>> 7).toNat = b.toNat / 128 := by rw [BitVec.toNat_ushiftRight, Nat.shiftRight_eq_div_pow]
  have hcases : b.toNat / 128 = 0 ∨ b.toNat / 128 = 1 := by omega
  exact hcases.imp (fun h0 => BitVec.eq_of_toNat_eq (h.trans h0)) (fun h1 => BitVec.eq_of_toNat_eq (h.trans h1))

/-- The sum of a jump through V0 does not wrap (42_control_flow.md R128). -/
theorem jpV0_target_toNat (nnn : Lit12) (b : Byte) : (litAddr nnn + zext16 b).toNat = nnn.toNat + b.toNat := by
  have := nnn.isLt
  have := b.isLt
  rw [BitVec.toNat_add, litAddr_toNat, zext16_toNat]
  omega

/-- Some key is down exactly when the latch is not 0. -/
theorem leastKeyDown_eq_none_iff_keys (s : State) : s.leastKeyDown = none ↔ s.keys = 0 := by
  rw [State.leastKeyDown_eq_none_iff]
  constructor
  · intro h
    apply BitVec.eq_of_getLsbD_eq
    intro k hk
    exact (h ⟨k, hk⟩).trans BitVec.getLsbD_zero.symm
  · intro h k
    rw [State.keyDown, h]
    exact BitVec.getLsbD_zero

/-- A skip whose test is a Boolean: by 4 when it holds, else by 2 (R124). -/
theorem skipIf_pc_of_iff {c : Bool} {p : Prop} [Decidable p] (h : c = true ↔ p) :
    (s.skipIf c).pc = if p then s.pc + 4 else s.pc + 2 := by
  rw [State.skipIf_pc]
  exact if_congr h rfl rfl

/-- Every instruction raises, or completes with VF and `pc` as tabled. -/
theorem exec_effect (i : Instr) (s : State) :
    ∃ t, exec i s = .next t ∧ (Cycle.Raises s t ∨ (VfAsListed i s t ∧ NextPc s t i)) := by
  cases i with
  | halt => exact ⟨_, rfl, .inl ⟨.halt, 0, by decide, rfl⟩⟩
  | cls | ldI _ | ldDtVx _ | ldStVx _ | addIVx _ => exact ⟨_, rfl, .inr ⟨vfAsListed_of_v_eq rfl rfl, rfl⟩⟩
  | ldImm _ _ | addImm _ _ | ldReg _ _ | orReg _ _ | andReg _ _ | xorReg _ _ | rnd _ _ | ldVxDt _ =>
    exact ⟨_, rfl, .inr ⟨vfAsListed_setReg _ rfl Iff.rfl, rfl⟩⟩
  | addReg _ _ | subReg _ _ | subnReg _ _ =>
    refine ⟨_, rfl, .inr ⟨vfAsListed_writeResultAndFlag rfl (flagByte_eq_zero_or_one _), ?_⟩⟩
    rw [Cycle.writeResultAndFlag_eq_with_v]
    rfl
  | shrReg _ _ => exact ⟨_, rfl, .inr ⟨vfAsListed_writeFlagThenResult rfl (shiftRightOut_flag _), rfl⟩⟩
  | shlReg _ _ => exact ⟨_, rfl, .inr ⟨vfAsListed_writeFlagThenResult rfl (shiftLeftOut_flag _), rfl⟩⟩
  | jp nnn => exact ⟨_, rfl, .inr ⟨vfAsListed_of_v_eq rfl rfl, litAddr_toNat nnn⟩⟩
  | jpV0 nnn => exact ⟨_, rfl, .inr ⟨vfAsListed_of_v_eq rfl rfl, jpV0_target_toNat nnn _⟩⟩
  | seImm _ _ | seReg _ _ => exact ⟨_, rfl, .inr ⟨vfAsListed_of_v_eq rfl rfl, skipIf_pc_of_iff beq_iff_eq⟩⟩
  | sneImm _ _ | sneReg _ _ => exact ⟨_, rfl, .inr ⟨vfAsListed_of_v_eq rfl rfl, skipIf_pc_of_iff bne_iff_ne⟩⟩
  | call nnn =>
    by_cases h : s.sp.val < 16
    · exact ⟨_, exec_call_of_lt s nnn h, .inr ⟨vfAsListed_of_v_eq rfl rfl, litAddr_toNat nnn⟩⟩
    · exact ⟨_, exec_call_of_full s nnn (by omega), .inl ⟨_, _, by decide, rfl⟩⟩
  | ret =>
    by_cases h : 0 < s.sp.val
    · refine ⟨_, exec_ret_of_pos s h, .inr ⟨vfAsListed_of_v_eq rfl rfl, fun k hk => ?_⟩⟩
      simp only [← hk, Nat.add_sub_cancel]
      rfl
    · exact ⟨_, exec_ret_of_empty s (by omega), .inl ⟨_, _, by decide, rfl⟩⟩
  | skp x =>
    by_cases h : s.v[x].toNat < 16
    · exact ⟨_, exec_skp_of_le s x h, .inr ⟨vfAsListed_of_v_eq rfl rfl, skipIf_pc_of_iff Iff.rfl⟩⟩
    · exact ⟨_, exec_skp_of_gt s x h, .inl ⟨_, _, by decide, rfl⟩⟩
  | sknp x =>
    by_cases h : s.v[x].toNat < 16
    · have htest : (!s.keys.getLsbD s.v[x].toNat) = true ↔ s.keys.getLsbD s.v[x].toNat = false := by simp
      exact ⟨_, exec_sknp_of_le s x h, .inr ⟨vfAsListed_of_v_eq rfl rfl, skipIf_pc_of_iff htest⟩⟩
    · exact ⟨_, exec_sknp_of_gt s x h, .inl ⟨_, _, by decide, rfl⟩⟩
  | ldFVx x =>
    by_cases h : s.v[x].toNat < 16
    · exact ⟨_, exec_ldFVx_of_le s x h, .inr ⟨vfAsListed_of_v_eq rfl rfl, rfl⟩⟩
    · exact ⟨_, exec_ldFVx_of_gt s x h, .inl ⟨_, _, by decide, rfl⟩⟩
  | ldVxK x =>
    have hkeys := leastKeyDown_eq_none_iff_keys s
    cases h : s.leastKeyDown with
    | some k =>
      have hdown : s.keys ≠ 0 := fun h0 => nomatch h.symm.trans (hkeys.mpr h0)
      exact ⟨_, exec_ldVxK_of_some s x h, .inr ⟨vfAsListed_setReg _ rfl Iff.rfl, (if_pos hdown).symm⟩⟩
    | none =>
      have hup : ¬ s.keys ≠ 0 := not_not_intro (hkeys.mp h)
      exact ⟨s, exec_ldVxK_of_none s x h, .inr ⟨vfAsListed_of_v_eq rfl rfl, (if_neg hup).symm⟩⟩
  | drw x y n =>
    cases h : rangeFault s.i n.toNat with
    | some a => exact ⟨_, exec_drw_of_some s x y n h, .inl ⟨_, _, by decide, rfl⟩⟩
    | none => exact ⟨_, exec_drw_of_none s x y n h, .inr ⟨vfAsListed_drw _ _, rfl⟩⟩
  | ldBVx x =>
    cases h : rangeFault s.i 3 with
    | some a => exact ⟨_, exec_ldBVx_of_some s x h, .inl ⟨_, _, by decide, rfl⟩⟩
    | none => exact ⟨_, exec_ldBVx_of_none s x h, .inr ⟨vfAsListed_of_v_eq rfl rfl, rfl⟩⟩
  | ldMemVx x =>
    cases h : rangeFault s.i (x.val + 1) with
    | some a => exact ⟨_, exec_ldMemVx_of_some s x h, .inl ⟨_, _, by decide, rfl⟩⟩
    | none => exact ⟨_, exec_ldMemVx_of_none s x h, .inr ⟨vfAsListed_of_v_eq rfl rfl, rfl⟩⟩
  | ldVxMem x =>
    cases h : rangeFault s.i (x.val + 1) with
    | some a => exact ⟨_, exec_ldVxMem_of_some s x h, .inl ⟨_, _, by decide, rfl⟩⟩
    | none => exact ⟨_, exec_ldVxMem_of_none s x h, .inr ⟨vfAsListed_ldVxMem rfl, rfl⟩⟩

/-- The same of a next state, seen from the latch `RUN`: it tells whether the instruction raised. -/
theorem effect_of_exec (h : exec i s = .next t) (hrun : s.run = true) :
    (t.run = true → VfAsListed i s t ∧ NextPc s t i) ∧ (t.run = false → t.pc = s.pc) := by
  obtain ⟨t₁, ht₁, heffect⟩ := exec_effect i s
  obtain rfl := Host.Outcome.next.inj (h.symm.trans ht₁)
  obtain ⟨t₂, ht₂, hcases⟩ := Cycle.exec_cases i s
  obtain rfl := Host.Outcome.next.inj (h.symm.trans ht₂)
  constructor
  · intro htrue
    rcases heffect with ⟨c, info, -, rfl⟩ | heffect
    · cases htrue
    · exact heffect
  · intro hfalse
    rcases hcases with ⟨c, info, -, rfl⟩ | hdone
    · rfl
    · obtain ⟨hlatch, -, -⟩ := hdone.latches
      rw [hlatch, hrun] at hfalse
      cases hfalse

end Sys2Proof.Effects

/-- Settles O43: in a running core a next state that runs comes from an instruction that completed. -/
theorem vfIsWrittenOnlyByTheSixOrByName : Obligations.VfIsWrittenOnlyByTheSixOrByName := by
  unfold Obligations.VfIsWrittenOnlyByTheSixOrByName
  intro i s t hrun h htrue
  obtain ⟨hcompletes, -⟩ := Sys2Proof.Effects.effect_of_exec h hrun
  obtain ⟨hvf, -⟩ := hcompletes htrue
  exact hvf

/-- Settles O44: an instruction that completes sets `pc` as tabled, and raising leaves it. -/
theorem nextPcIsAsTabled : Obligations.NextPcIsAsTabled := by
  unfold Obligations.NextPcIsAsTabled
  intro i s t hrun h
  obtain ⟨hcompletes, hraises⟩ := Sys2Proof.Effects.effect_of_exec h hrun
  refine ⟨fun htrue => ?_, hraises⟩
  obtain ⟨-, hpc⟩ := hcompletes htrue
  exact hpc

/-! Memory after a launch (70_reset_and_hazards.md R222): the image from the program origin up, the reset contents
elsewhere. -/

namespace Sys2Proof.Launch

open Sys2Proof.Machine

/-- The memory of a launch, before the image is placed, reads as the font and zeros (10_state.md R36). -/
theorem resetWith_mem_read (font : Vector Byte Config.fontSize) (a : Nat) :
    (State.resetWith font).mem.read a = if h : a < Config.fontSize then font[a] else 0 := rfl

/-- Each byte after a launch: the image's, then zeros, from 0x200 on; what it was at reset below. -/
theorem mem_read_of_launch {font : Vector Byte Config.fontSize} {image : List Byte} (hfit : image.length ≤ 3584)
    (a : Nat) :
    ((State.resetWith font).mem.writeBytes Config.programOrigin.toNat image).read a =
      if 0x200 ≤ a then (image[a - 0x200]?).getD 0 else (State.resetWith font).mem.read a := by
  have horigin : Config.programOrigin.toNat = 0x200 := rfl
  have hsize : Config.memSize = 4096 := rfl
  rw [Memory.read_writeBytes _ _ _ _ (by omega), horigin]
  split
  · have hfont : ¬ a < Config.fontSize := by
      show ¬ a < 80
      omega
    rw [resetWith_mem_read, dif_neg hfont]
  · rfl

end Sys2Proof.Launch

/-- Settles O6: the registers are those of the reset, and each byte of memory is the image's from 0x200 on and the
reset's below. -/
theorem launchGivesTheResetState : Obligations.LaunchGivesTheResetState := by
  unfold Obligations.LaunchGivesTheResetState
  refine ⟨Sys2Proof.Machine.launch_nil _, fun font image => ⟨fun hfit => ?_, fun hlong => ?_⟩⟩
  · have hread := Sys2Proof.Launch.mem_read_of_launch (font := font) hfit
    refine ⟨_, Sys2Proof.Machine.launch_of_fits font image hfit, fun k => ?_, rfl, rfl, rfl, rfl, rfl, fun r c => ?_,
      rfl, rfl, rfl, rfl, fun a => ?_, fun a hlo hhi => ?_, fun k hk => ?_, fun a hlo hhi => ?_⟩
    · simp
    · simp
    · exact (hread a).trans ((if_neg (by omega)).trans (dif_pos a.isLt))
    · exact (hread a).trans ((if_neg (by omega)).trans (dif_neg (by show ¬ a < 80; omega)))
    · rw [Sys2Proof.Machine.State.setMem_mem, hread, if_pos (by omega), Nat.add_sub_cancel_left,
        List.getElem?_eq_getElem hk]
      rfl
    · rw [Sys2Proof.Machine.State.setMem_mem, hread, if_pos (by omega), List.getElem?_eq_none (by omega)]
      rfl
  · exact Sys2Proof.Machine.launch_of_tooLong font image (by omega)

/-! Memory over time (20_memory.md R50 to R63): no cycle changes the font, a read returns the latest write, a canonical
memory is determined by what it reads as, and the bytes of a block store are fetched as instructions. -/

namespace Sys2Proof.MemoryUse

open Sys2Proof.Machine

/-! ### What a cycle does to memory -/

/-- A cycle writes memory by one block at most: only a completed instruction writes, and the tick does not. -/
theorem mem_eq_writeBytes_of_cycleResult {s t : State} (h : Cycle.CycleResult s t) :
    ∃ a vs, t.mem = s.mem.writeBytes a vs := by
  cases h with
  | stopped _ => exact ⟨0, [], rfl⟩
  | raised _ hraise =>
    obtain ⟨c, info, -, rfl⟩ := hraise
    exact ⟨0, [], rfl⟩
  | completed _ _ hdone => exact hdone.mem_eq_writeBytes

theorem font_of_cycleResult {s t : State} (h : Cycle.CycleResult s t) : t.mem.font = s.mem.font := by
  obtain ⟨a, vs, hmem⟩ := mem_eq_writeBytes_of_cycleResult h
  rw [hmem, Memory.writeBytes_font]

/-! ### A canonical memory is determined by its reads -/

theorem mem_of_cellAt {a : Nat} {v : Byte} {cells : List Host.Cell} (h : cellAt cells a = some v) :
    (a, v) ∈ cells := by
  induction cells with
  | nil => cases h
  | cons c rest ih =>
    obtain ⟨b, w⟩ := c
    unfold cellAt at h
    split at h
    · next hab =>
      subst hab
      cases h
      exact List.mem_cons_self
    · exact List.mem_cons_of_mem _ (ih h)

/-- Every address listed in a rising list is at least its bound. -/
theorem le_of_cellAt {lo a : Nat} {v : Byte} {cells : List Host.Cell} (hc : risingFrom lo cells = true)
    (h : cellAt cells a = some v) : lo ≤ a := by
  induction cells generalizing lo with
  | nil => cases h
  | cons c rest ih =>
    obtain ⟨b, w⟩ := c
    simp only [risingFrom, Bool.and_eq_true, decide_eq_true_eq] at hc
    obtain ⟨hlo, hrest⟩ := hc
    unfold cellAt at h
    split at h
    · omega
    · have := ih hrest h
      omega

theorem cellAt_cons_self (a : Nat) (v : Byte) (rest : List Host.Cell) : cellAt ((a, v) :: rest) a = some v :=
  if_pos rfl

theorem cellAt_cons_of_ne {a b : Nat} (v : Byte) (rest : List Host.Cell) (h : a ≠ b) :
    cellAt ((b, v) :: rest) a = cellAt rest a :=
  if_neg h

/-- What stands at the head of a rising list is not listed again. -/
theorem cellAt_of_risingFrom_succ {a : Nat} {cells : List Host.Cell} (hc : risingFrom (a + 1) cells = true) :
    cellAt cells a = none := by
  cases h : cellAt cells a with
  | none => rfl
  | some v => exact absurd (le_of_cellAt hc h) (Nat.not_succ_le_self a)

/-- Rising lists that list the same byte at every address are equal: each head is listed in the other list, so neither
head is below the other. -/
theorem eq_of_cellAt_eq {lo : Nat} {cells cells' : List Host.Cell} (hc : risingFrom lo cells = true)
    (hc' : risingFrom lo cells' = true) (h : ∀ a, cellAt cells a = cellAt cells' a) : cells = cells' := by
  induction cells generalizing lo cells' with
  | nil =>
    cases cells' with
    | nil => rfl
    | cons c' rest' => exact nomatch (h c'.1).trans (cellAt_cons_self _ _ _)
  | cons c rest ih =>
    cases cells' with
    | nil => exact nomatch (h c.1).symm.trans (cellAt_cons_self _ _ _)
    | cons c' rest' =>
      obtain ⟨a, v⟩ := c
      obtain ⟨b, w⟩ := c'
      simp only [risingFrom, Bool.and_eq_true, decide_eq_true_eq] at hc hc'
      obtain ⟨-, hrest⟩ := hc
      obtain ⟨-, hrest'⟩ := hc'
      have hv := (h a).symm.trans (cellAt_cons_self a v rest)
      have hw := (h b).trans (cellAt_cons_self b w rest')
      have hba : b ≤ a := le_of_cellAt (by simp [risingFrom, hrest']) hv
      have hab : a ≤ b := le_of_cellAt (by simp [risingFrom, hrest]) hw
      obtain rfl := Nat.le_antisymm hab hba
      obtain rfl := Option.some.inj (hv.symm.trans (cellAt_cons_self a w rest'))
      congr 1
      refine ih hrest hrest' fun d => ?_
      by_cases hd : d = a
      · rw [hd, cellAt_of_risingFrom_succ hrest, cellAt_of_risingFrom_succ hrest']
      · rw [← cellAt_cons_of_ne v rest hd, h, cellAt_cons_of_ne v rest' hd]

/-- In canonical form the listing is read off the memory: exactly the bytes that differ from the background. -/
theorem cellAt_of_wf {m : Memory} (hm : m.wf = true) (a : Nat) :
    cellAt m.cells a = if m.read a = m.background a then none else some (m.read a) := by
  cases h : cellAt m.cells a with
  | none => simp [Memory.read, h]
  | some v =>
    simp only [Memory.wf, Bool.and_eq_true, List.all_eq_true, decide_eq_true_eq] at hm
    obtain ⟨-, hcells⟩ := hm
    obtain ⟨-, hne⟩ := hcells _ (mem_of_cellAt h)
    simp [Memory.read, h, hne]

theorem risingFrom_of_wf {m : Memory} (hm : m.wf = true) : risingFrom 0 m.cells = true := by
  simp only [Memory.wf, Bool.and_eq_true] at hm
  exact hm.1

theorem memory_eq_of_read_eq {m m' : Memory} (hm : m.wf = true) (hm' : m'.wf = true) (hfont : m.font = m'.font)
    (hread : ∀ a, m.read a = m'.read a) : m = m' := by
  have hbg (a : Nat) : m.background a = m'.background a := by simp only [Memory.background, hfont]
  have hcells : m.cells = m'.cells := by
    refine eq_of_cellAt_eq (risingFrom_of_wf hm) (risingFrom_of_wf hm') fun a => ?_
    rw [cellAt_of_wf hm, cellAt_of_wf hm', hread, hbg]
  cases m
  cases m'
  cases hfont
  cases hcells
  rfl

/-! ### The bytes of a block store -/

/-- Byte k of the memory after a block store that stays inside memory (44_timer_input_memory.md R169). -/
theorem read_writeBytes_regsUpTo {s : State} {x : Reg} {k : Nat} (hk : k ≤ x.val) (hin : s.i.toNat + x.val ≤ 0xFFF) :
    (s.mem.writeBytes s.i.toNat (s.regsUpTo x)).read (s.i.toNat + k) = s.v[k] := by
  have hblock : s.i.toNat + (s.regsUpTo x).length ≤ Config.memSize := by
    rw [State.regsUpTo_length]
    show s.i.toNat + (x.val + 1) ≤ 4096
    omega
  rw [Memory.read_writeBytes _ _ _ _ hblock, if_pos (Nat.le_add_right _ _), Nat.add_sub_cancel_left,
    State.regsUpTo_getElem?, dif_pos (by omega)]
  rfl

/-- A fetch at an even address inside memory, whatever `pc` was (20_memory.md R54, 40_decode_dispatch.md R91). -/
theorem fetch_with_pc {s : State} {a : Nat} (heven : a % 2 = 0) (hle : a ≤ 0xFFE) :
    fetch { s with pc := BitVec.ofNat 16 a } = some (wordOfBytes (s.mem.read a) (s.mem.read (a + 1))) := by
  have ha : (BitVec.ofNat 16 a).toNat = a := by
    rw [BitVec.toNat_ofNat]
    omega
  have hf : fetchable (BitVec.ofNat 16 a) = true := (fetchable_iff _).mpr (by rw [ha]; exact ⟨heven, hle⟩)
  rw [fetch_of_fetchable _ hf, ha]

end Sys2Proof.MemoryUse

/-- Settles O47, by the three kinds of cycle: at most a block of writes reaches memory, and it keeps the canonical form
and the font. -/
theorem cycleKeepsMemoryCanonical : Obligations.CycleKeepsMemoryCanonical := by
  unfold Obligations.CycleKeepsMemoryCanonical
  intro s t hs hstep
  have hr := Sys2Proof.Cycle.cycleResult_of_step hstep
  exact ⟨hr.memoryCanonical hs, Sys2Proof.MemoryUse.font_of_cycleResult hr⟩

/-- Settles O38, by induction on the list of writes. -/
theorem readReturnsTheLatestWrite : Obligations.ReadReturnsTheLatestWrite := by
  unfold Obligations.ReadReturnsTheLatestWrite
  intro m writes a
  induction writes generalizing m with
  | nil => rfl
  | cons w later ih =>
    obtain ⟨b, v⟩ := w
    rw [List.foldl_cons, ih, Sys2Proof.Machine.Memory.read_write _ _ _ _ b.isLt, Sys2Proof.Claims.latestWrite]
    simp only [eq_comm]

/-- Settles O39: the two listings are read off the same bytes, and a rising list is determined by what it lists. -/
theorem canonicalMemoriesThatReadAlikeAreEqual : Obligations.CanonicalMemoriesThatReadAlikeAreEqual := by
  unfold Obligations.CanonicalMemoriesThatReadAlikeAreEqual
  intro m m' hm hm' hfont hread
  exact Sys2Proof.MemoryUse.memory_eq_of_read_eq hm hm' hfont hread

/-- Settles O40: the block store leaves V[k] and V[k + 1] at two adjacent bytes, the first at an even address, and the
fetch there reads them. -/
theorem storedBytesAreFetched : Obligations.StoredBytesAreFetched := by
  unfold Obligations.StoredBytesAreFetched
  intro s x k h hkx hin heven
  have hfault := (Sys2Proof.Machine.rangeFault_eq_none_iff s.i (x.val + 1)).mpr (.inr (by omega))
  refine ⟨_, _, Sys2Proof.Machine.exec_ldMemVx_of_none s x hfault,
    Sys2Proof.MemoryUse.fetch_with_pc heven (by omega), ?_⟩
  rw [Sys2Proof.wordOfBytes_toNat, Nat.add_assoc,
    Sys2Proof.MemoryUse.read_writeBytes_regsUpTo (by omega) hin, Sys2Proof.MemoryUse.read_writeBytes_regsUpTo hkx hin]
  rfl

/-! The encoding: what the decoder answers on a word, group by group (30_encoding.md R75 to R77): an instruction whose
word it is, on a word outside the table of unrecognised words, or a rejection, on a word of that table. -/

namespace Sys2Proof.Encoding

open Sys2Proof.Claims

/-! ### A word is put together from its fields (R72) -/

section

variable {w : Word} {op n : Nibble} {nnn : Lit12} {kk : Byte}

theorem wordA_of_fields (hop : fieldOp w = op) (hnnn : fieldNNN w = nnn) : wordA op nnn = w := by
  rw [← hop, ← hnnn, ← word_eq_wordA]

theorem wordXK_of_fields (hop : fieldOp w = op) (hkk : fieldKK w = kk) : wordXK op (fieldX w) kk = w := by
  rw [← hop, ← hkk, ← word_eq_wordXK]

theorem wordXYN_of_fields (hop : fieldOp w = op) (hn : fieldN w = n) :
    wordXYN op (fieldX w) (fieldY w) n = w := by
  rw [← hop, ← hn, ← word_eq_wordXYN]

end

/-! ### The answer on every word (R75 to R77) -/

/-- The table of R77, read off the fields of a word. Its line for group 8 names the seven values of `n` that select
nothing; here the nine that select an instruction stand, as in the other lines. -/
theorem listedUnrecognised_iff_fields (w : Word) : listedUnrecognised w.toNat ↔
    (fieldOp w = 0x0 ∧ ¬ (fieldNNN w = 0x000 ∨ fieldNNN w = 0x0E0 ∨ fieldNNN w = 0x0EE)) ∨
    (fieldOp w = 0x5 ∧ fieldN w ≠ 0) ∨
    (fieldOp w = 0x8 ∧ ¬ (fieldN w = 0 ∨ fieldN w = 1 ∨ fieldN w = 2 ∨ fieldN w = 3 ∨ fieldN w = 4 ∨ fieldN w = 5 ∨
      fieldN w = 6 ∨ fieldN w = 7 ∨ fieldN w = 0xE)) ∨
    (fieldOp w = 0x9 ∧ fieldN w ≠ 0) ∨
    (fieldOp w = 0xE ∧ ¬ (fieldKK w = 0x9E ∨ fieldKK w = 0xA1)) ∨
    (fieldOp w = 0xF ∧ ¬ (fieldKK w = 0x07 ∨ fieldKK w = 0x0A ∨ fieldKK w = 0x15 ∨ fieldKK w = 0x18 ∨
      fieldKK w = 0x1E ∨ fieldKK w = 0x29 ∨ fieldKK w = 0x33 ∨ fieldKK w = 0x55 ∨ fieldKK w = 0x65)) := by
  have hline8 : (w.toNat % 16 = 8 ∨ w.toNat % 16 = 9 ∨ w.toNat % 16 = 0xA ∨ w.toNat % 16 = 0xB ∨ w.toNat % 16 = 0xC ∨
      w.toNat % 16 = 0xD ∨ w.toNat % 16 = 0xF) ↔ ¬ (w.toNat % 16 = 0 ∨ w.toNat % 16 = 1 ∨ w.toNat % 16 = 2 ∨
      w.toNat % 16 = 3 ∨ w.toNat % 16 = 4 ∨ w.toNat % 16 = 5 ∨ w.toNat % 16 = 6 ∨ w.toNat % 16 = 7 ∨
      w.toNat % 16 = 0xE) := by omega
  simp only [listedUnrecognised, ne_eq, BitVec.toNat_eq, fieldOp_toNat, fieldNNN_toNat, fieldN_toNat, fieldKK_toNat,
    hline8, BitVec.reduceToNat]

/-- What a decoder's answer on the word w has to be: an instruction whose word is w, where R77 does not list w, or a
rejection, where it does. -/
def Sound (w : Word) : Except DecodeReject Instr → Prop
  | .ok i => encode i = w ∧ ¬ listedUnrecognised w.toNat
  | .error _ => listedUnrecognised w.toNat

variable {w : Word}

theorem decodeGroup0_sound (hop : fieldOp w = 0x0) : Sound w (decodeGroup0 w) := by
  unfold decodeGroup0
  split
  case h_1 h | h_2 h | h_3 h => exact ⟨wordA_of_fields hop h, by simp [listedUnrecognised_iff_fields, hop, h]⟩
  case h_4 => simp_all [Sound, listedUnrecognised_iff_fields]

theorem decodeGroup8_sound (hop : fieldOp w = 0x8) : Sound w (decodeGroup8 w) := by
  unfold decodeGroup8
  split
  case h_1 h | h_2 h | h_3 h | h_4 h | h_5 h | h_6 h | h_7 h | h_8 h | h_9 h =>
    exact ⟨wordXYN_of_fields hop h, by simp [listedUnrecognised_iff_fields, hop, h]⟩
  case h_10 => simp_all [Sound, listedUnrecognised_iff_fields]

theorem decodeGroupE_sound (hop : fieldOp w = 0xE) : Sound w (decodeGroupE w) := by
  unfold decodeGroupE
  split
  case h_1 h | h_2 h => exact ⟨wordXK_of_fields hop h, by simp [listedUnrecognised_iff_fields, hop, h]⟩
  case h_3 => simp_all [Sound, listedUnrecognised_iff_fields]

theorem decodeGroupF_sound (hop : fieldOp w = 0xF) : Sound w (decodeGroupF w) := by
  unfold decodeGroupF
  split
  case h_1 h | h_2 h | h_3 h | h_4 h | h_5 h | h_6 h | h_7 h | h_8 h | h_9 h =>
    exact ⟨wordXK_of_fields hop h, by simp [listedUnrecognised_iff_fields, hop, h]⟩
  case h_10 => simp_all [Sound, listedUnrecognised_iff_fields]

theorem requireLowNibble0_sound {i : Instr} (hop : fieldOp w = 0x5 ∨ fieldOp w = 0x9)
    (hi : fieldN w = 0 → encode i = w) : Sound w (requireLowNibble0 w i) := by
  unfold requireLowNibble0
  split
  case isTrue hn => exact ⟨hi hn, by rcases hop with h | h <;> simp [listedUnrecognised_iff_fields, h, hn]⟩
  case isFalse hn => rcases hop with h | h <;> simpa [Sound, listedUnrecognised_iff_fields, h] using hn

/-- Every word is decoded to an instruction whose word it is, or rejected as one of the table of R77 (R75, R92). -/
theorem decodeWord_sound (w : Word) : Sound w (decodeWord w) := by
  unfold decodeWord
  split
  case h_1 hop => exact decodeGroup0_sound hop
  case h_2 hop | h_3 hop | h_11 hop | h_12 hop =>
    exact ⟨wordA_of_fields hop rfl, by simp [listedUnrecognised_iff_fields, hop]⟩
  case h_4 hop | h_5 hop | h_7 hop | h_8 hop | h_13 hop =>
    exact ⟨wordXK_of_fields hop rfl, by simp [listedUnrecognised_iff_fields, hop]⟩
  case h_6 hop => exact requireLowNibble0_sound (.inl hop) (wordXYN_of_fields hop)
  case h_9 hop => exact decodeGroup8_sound hop
  case h_10 hop => exact requireLowNibble0_sound (.inr hop) (wordXYN_of_fields hop)
  case h_14 hop => exact ⟨wordXYN_of_fields hop rfl, by simp [listedUnrecognised_iff_fields, hop]⟩
  case h_15 hop => exact decodeGroupE_sound hop
  case h_16 =>
    have hop : fieldOp w = 0xF := by
      generalize fieldOp w = op at *
      revert op
      decide
    exact decodeGroupF_sound hop

theorem encode_of_decodeWord {i : Instr} (h : decodeWord w = .ok i) : encode i = w ∧ ¬ listedUnrecognised w.toNat :=
  (h ▸ decodeWord_sound w : Sound w (.ok i))

theorem listedUnrecognised_of_decodeWord {e : DecodeReject} (h : decodeWord w = .error e) :
    listedUnrecognised w.toNat :=
  (h ▸ decodeWord_sound w : Sound w (.error e))

/-! ### Decoding what the encoder writes (R83) -/

theorem decodeWord_encode (i : Instr) : decodeWord (encode i) = .ok i := by
  cases i with
  | halt | cls | ret => rfl
  | jp nnn | call nnn | ldI nnn | jpV0 nnn => simp [encode, decodeWord]
  | seImm x kk | sneImm x kk | ldImm x kk | addImm x kk | rnd x kk => simp [encode, decodeWord]
  | seReg x y | sneReg x y => simp [encode, decodeWord, requireLowNibble0]
  | ldReg x y | orReg x y | andReg x y | xorReg x y | addReg x y | subReg x y | shrReg x y | subnReg x y | shlReg x y =>
    simp [encode, decodeWord, decodeGroup8]
  | drw x y n => simp [encode, decodeWord]
  | skp x | sknp x => simp [encode, decodeWord, decodeGroupE]
  | ldVxDt x | ldVxK x | ldDtVx x | ldStVx x | addIVx x | ldFVx x | ldBVx x | ldMemVx x | ldVxMem x =>
    simp [encode, decodeWord, decodeGroupF]

/-- The decoder reads the two bytes of a word, high byte first, and leaves the rest (R54, R71). -/
theorem decodeBytes_bytesOfWord_append (w : Word) (rest : List Byte) :
    decodeBytes (bytesOfWord w ++ rest) = (decodeWord w).map (fun i => (i, rest)) := by
  show (decodeWord (wordOfBytes (hiByte w) (loByte w))).map (fun i => (i, rest)) = _
  rw [wordOfBytes_hi_lo]

end Sys2Proof.Encoding

/-- Settles O2, by cases on the instruction: each field of an encoded word is the operand put there, and the two bytes
of a word give it back. -/
theorem decodeOfEncodeIsTheInstruction : Obligations.DecodeOfEncodeIsTheInstruction := by
  unfold Obligations.DecodeOfEncodeIsTheInstruction
  intro i rest
  have hi := Sys2Proof.Encoding.decodeWord_encode i
  refine ⟨hi, ?_⟩
  rw [Sys2Proof.encodeBytes, Sys2Proof.Encoding.decodeBytes_bytesOfWord_append, hi]
  rfl

/-- Settles O3: every arm of the decoder answers with an instruction whose word is put together from the fields it
read. -/
theorem encodeOfDecodeIsTheWord : Obligations.EncodeOfDecodeIsTheWord := by
  unfold Obligations.EncodeOfDecodeIsTheWord
  intro w i h
  obtain ⟨hword, -⟩ := Sys2Proof.Encoding.encode_of_decodeWord h
  exact hword

/-- Settles O5: the decoder rejects listed words only, and a listed word is the word of no instruction. -/
theorem unrecognisedWordsAreThoseListed : Obligations.UnrecognisedWordsAreThoseListed := by
  unfold Obligations.UnrecognisedWordsAreThoseListed
  intro w
  constructor
  · rintro ⟨e, h⟩
    exact Sys2Proof.Encoding.listedUnrecognised_of_decodeWord h
  · intro hlisted
    cases h : Sys2Proof.decodeWord w with
    | error e => exact ⟨e, rfl⟩
    | ok i =>
      obtain ⟨-, hnot⟩ := Sys2Proof.Encoding.encode_of_decodeWord h
      exact absurd hlisted hnot

/-- Settles O1, by evaluating the decoder on the 35 words. -/
theorem sampleWordsDecode : Obligations.SampleWordsDecode := by
  unfold Obligations.SampleWordsDecode
  decide

/-! The opcode map (30_encoding.md R75) beside the decoder: each row has the mask and match of its encoding format, so a
word that selects it is the encoding of its operation with the word's fields; and each instruction's word selects the
row of its place in the table. -/

namespace Sys2Proof.OpcodeMap

open Sys2Proof.Claims

/-! ### Masks on words put together from fields (R72) -/

section

variable (op n : Nibble) (nnn : Lit12) (x y : Reg) (kk : Byte)

/-- The mask of formats A, XK and XYN keeps `op`. -/
theorem wordA_and_mask : wordA op nnn &&& 0xF000 = wordA op 0 := by
  show (op ++ nnn) &&& (BitVec.allOnes 4 ++ 0#12) = op ++ 0#12
  simp only [BitVec.and_append, BitVec.and_allOnes, BitVec.and_zero]

theorem wordXK_and_mask : wordXK op x kk &&& 0xF000 = wordA op 0 := wordA_and_mask op _

theorem wordXYN_and_mask : wordXYN op x y n &&& 0xF000 = wordA op 0 := wordA_and_mask op _

/-- The mask of format XY keeps `op` and `n`. -/
theorem wordXYN_and_mask_n : wordXYN op x y n &&& 0xF00F = wordXYN op 0 0 n := by
  show (op ++ (regBits x ++ (regBits y ++ n))) &&&
    (BitVec.allOnes 4 ++ (0#4 ++ (0#4 ++ BitVec.allOnes 4))) = op ++ (0#4 ++ (0#4 ++ n))
  simp only [BitVec.and_append, BitVec.and_allOnes, BitVec.and_zero]

/-- The mask of format X keeps `op` and `kk`. -/
theorem wordXK_and_mask_kk : wordXK op x kk &&& 0xF0FF = wordXK op 0 kk := by
  show (op ++ (regBits x ++ kk)) &&& (BitVec.allOnes 4 ++ (0#4 ++ BitVec.allOnes 8)) = op ++ (0#4 ++ kk)
  simp only [BitVec.and_append, BitVec.and_allOnes, BitVec.and_zero]

end

/-! ### What a masked word says of the fields -/

section

variable {w : Word} {op n : Nibble} {kk : Byte}

theorem fieldOp_of_mask (h : w &&& 0xF000 = wordA op 0) : fieldOp w = op := by
  rw [word_eq_wordA w, wordA_and_mask] at h
  simpa using congrArg fieldOp h

theorem fields_of_mask_n (h : w &&& 0xF00F = wordXYN op 0 0 n) : fieldOp w = op ∧ fieldN w = n := by
  rw [word_eq_wordXYN w, wordXYN_and_mask_n] at h
  exact ⟨by simpa using congrArg fieldOp h, by simpa using congrArg fieldN h⟩

theorem fields_of_mask_kk (h : w &&& 0xF0FF = wordXK op 0 kk) : fieldOp w = op ∧ fieldKK w = kk := by
  rw [word_eq_wordXK w, wordXK_and_mask_kk] at h
  exact ⟨by simpa using congrArg fieldOp h, by simpa using congrArg fieldKK h⟩

end

/-! ### The operands a row takes from the word are the word's fields -/

section

variable (w : Word)

theorem fieldX_eq : fieldX w = ⟨w.toNat / 256 % 16, by omega⟩ := Fin.ext (fieldX_val w)

theorem fieldY_eq : fieldY w = ⟨w.toNat / 16 % 16, by omega⟩ := Fin.ext (fieldY_val w)

theorem fieldN_eq : fieldN w = BitVec.ofNat 4 (w.toNat % 16) := by
  rw [← fieldN_toNat, BitVec.ofNat_toNat, BitVec.setWidth_eq]

theorem fieldKK_eq : fieldKK w = BitVec.ofNat 8 (w.toNat % 256) := by
  rw [← fieldKK_toNat, BitVec.ofNat_toNat, BitVec.setWidth_eq]

theorem fieldNNN_eq : fieldNNN w = BitVec.ofNat 12 (w.toNat % 4096) := by
  rw [← fieldNNN_toNat, BitVec.ofNat_toNat, BitVec.setWidth_eq]

theorem withX_eq (f : Reg → Instr) : withX f w = f (fieldX w) := by
  rw [withX, fieldX_eq]

theorem withXK_eq (f : Reg → Byte → Instr) : withXK f w = f (fieldX w) (fieldKK w) := by
  rw [withXK, fieldX_eq, fieldKK_eq]

theorem withXY_eq (f : Reg → Reg → Instr) : withXY f w = f (fieldX w) (fieldY w) := by
  rw [withXY, fieldX_eq, fieldY_eq]

theorem withXYN_eq (f : Reg → Reg → Nibble → Instr) : withXYN f w = f (fieldX w) (fieldY w) (fieldN w) := by
  rw [withXYN, fieldX_eq, fieldY_eq, fieldN_eq]

theorem withNNN_eq (f : Lit12 → Instr) : withNNN f w = f (fieldNNN w) := by
  rw [withNNN, fieldNNN_eq]

end

/-! ### Rows by encoding format (R73) -/

/-- A row has the mask of the format its operation is encoded in, and as match the fields that the format fixes. -/
inductive OfFormat : Row → Prop where
  | z {i : Instr} {p : Word} (hp : encode i = p) : OfFormat ⟨0xFFFF, p, fun _ => i⟩
  | a {f : Lit12 → Instr} {op : Nibble} {p : Word} (hf : ∀ nnn, encode (f nnn) = wordA op nnn)
      (hp : p = wordA op 0) : OfFormat ⟨0xF000, p, withNNN f⟩
  | xk {f : Reg → Byte → Instr} {op : Nibble} {p : Word} (hf : ∀ x kk, encode (f x kk) = wordXK op x kk)
      (hp : p = wordA op 0) : OfFormat ⟨0xF000, p, withXK f⟩
  | xyn {f : Reg → Reg → Nibble → Instr} {op : Nibble} {p : Word}
      (hf : ∀ x y n, encode (f x y n) = wordXYN op x y n) (hp : p = wordA op 0) : OfFormat ⟨0xF000, p, withXYN f⟩
  | xy {f : Reg → Reg → Instr} {op n : Nibble} {p : Word} (hf : ∀ x y, encode (f x y) = wordXYN op x y n)
      (hp : p = wordXYN op 0 0 n) : OfFormat ⟨0xF00F, p, withXY f⟩
  | x {f : Reg → Instr} {op : Nibble} {kk : Byte} {p : Word} (hf : ∀ x, encode (f x) = wordXK op x kk)
      (hp : p = wordXK op 0 kk) : OfFormat ⟨0xF0FF, p, withX f⟩

theorem OfFormat.encode_instr {r : Row} {w : Word} (hr : OfFormat r) (hsel : r.selects w) :
    encode (r.instr w) = w := by
  unfold Row.selects at hsel
  cases hr with
  | z hp => exact hp.trans (hsel.symm.trans BitVec.and_allOnes)
  | a hf hp =>
    have hop := fieldOp_of_mask (hsel.trans hp)
    show encode (withNNN _ w) = w
    rw [withNNN_eq, hf, Encoding.wordA_of_fields hop rfl]
  | xk hf hp =>
    have hop := fieldOp_of_mask (hsel.trans hp)
    show encode (withXK _ w) = w
    rw [withXK_eq, hf, Encoding.wordXK_of_fields hop rfl]
  | xyn hf hp =>
    have hop := fieldOp_of_mask (hsel.trans hp)
    show encode (withXYN _ w) = w
    rw [withXYN_eq, hf, Encoding.wordXYN_of_fields hop rfl]
  | xy hf hp =>
    obtain ⟨hop, hn⟩ := fields_of_mask_n (hsel.trans hp)
    show encode (withXY _ w) = w
    rw [withXY_eq, hf, Encoding.wordXYN_of_fields hop hn]
  | x hf hp =>
    obtain ⟨hop, hkk⟩ := fields_of_mask_kk (hsel.trans hp)
    show encode (withX _ w) = w
    rw [withX_eq, hf, Encoding.wordXK_of_fields hop hkk]

/-- The format of each of the 35 rows, in the order of the map. -/
theorem ofFormat_of_mem : ∀ r ∈ opcodeMap, OfFormat r := by
  simp only [opcodeMap, List.forall_mem_append, List.forall_mem_cons, List.not_mem_nil, false_implies,
    implies_true, and_true]
  exact ⟨⟨⟨.z rfl, .z rfl, .z rfl, .a (fun _ => rfl) rfl, .a (fun _ => rfl) rfl, .xk (fun _ _ => rfl) rfl,
      .xk (fun _ _ => rfl) rfl, .xy (fun _ _ => rfl) rfl, .xk (fun _ _ => rfl) rfl, .xk (fun _ _ => rfl) rfl,
      .xy (fun _ _ => rfl) rfl, .xy (fun _ _ => rfl) rfl⟩,
    .xy (fun _ _ => rfl) rfl, .xy (fun _ _ => rfl) rfl, .xy (fun _ _ => rfl) rfl, .xy (fun _ _ => rfl) rfl,
      .xy (fun _ _ => rfl) rfl, .xy (fun _ _ => rfl) rfl, .xy (fun _ _ => rfl) rfl, .xy (fun _ _ => rfl) rfl,
      .a (fun _ => rfl) rfl, .a (fun _ => rfl) rfl, .xk (fun _ _ => rfl) rfl, .xyn (fun _ _ _ => rfl) rfl⟩,
    .x (fun _ => rfl) rfl, .x (fun _ => rfl) rfl, .x (fun _ => rfl) rfl, .x (fun _ => rfl) rfl,
      .x (fun _ => rfl) rfl, .x (fun _ => rfl) rfl, .x (fun _ => rfl) rfl, .x (fun _ => rfl) rfl,
      .x (fun _ => rfl) rfl, .x (fun _ => rfl) rfl, .x (fun _ => rfl) rfl⟩

/-- A word that selects a row is decoded to the row's operation with the fields of the word (R92). -/
theorem decodeWord_of_selects {r : Row} {w : Word} (hr : r ∈ opcodeMap) (hsel : r.selects w) :
    decodeWord w = .ok (r.instr w) := by
  have hword := (ofFormat_of_mem r hr).encode_instr hsel
  have hdecode := Encoding.decodeWord_encode (r.instr w)
  rwa [hword] at hdecode

/-! ### Every instruction has its row, and no word has two -/

/-- The constructors of `Instr` stand in the order of the table: the row of that place is selected. -/
theorem exists_row_selects_encode (i : Instr) : ∃ r, opcodeMap[i.ctorIdx]? = some r ∧ r.selects (encode i) := by
  cases i with
  | halt | cls | ret => exact ⟨_, rfl, rfl⟩
  | jp nnn | call nnn | ldI nnn | jpV0 nnn => exact ⟨_, rfl, wordA_and_mask _ nnn⟩
  | seImm x kk | sneImm x kk | ldImm x kk | addImm x kk | rnd x kk => exact ⟨_, rfl, wordXK_and_mask _ x kk⟩
  | drw x y n => exact ⟨_, rfl, wordXYN_and_mask _ n x y⟩
  | seReg x y | ldReg x y | orReg x y | andReg x y | xorReg x y | addReg x y | subReg x y | shrReg x y | subnReg x y
  | shlReg x y | sneReg x y => exact ⟨_, rfl, wordXYN_and_mask_n _ _ x y⟩
  | skp x | sknp x | ldVxDt x | ldVxK x | ldDtVx x | ldStVx x | addIVx x | ldFVx x | ldBVx x | ldMemVx x | ldVxMem x =>
    exact ⟨_, rfl, wordXK_and_mask_kk _ x _⟩

/-- Two rows that a word selects agree on the bits that both masks keep. -/
theorem pattern_and_mask_eq {r r' : Row} {w : Word} (h : r.selects w) (h' : r'.selects w) :
    r.pattern &&& r'.mask = r'.pattern &&& r.mask := by
  unfold Row.selects at h h'
  rw [← h, ← h', BitVec.and_assoc, BitVec.and_assoc, BitVec.and_comm r.mask]

/-- No two rows agree on the bits that both masks keep. -/
theorem pairwise_pattern_and_mask_ne :
    opcodeMap.Pairwise (fun r r' => r.pattern &&& r'.mask ≠ r'.pattern &&& r.mask) := by
  decide

/-! ### Why the decoder refuses (R77) -/

/-- A refusal names the word: the groups with a second table refuse in its last arm, the others never. -/
theorem eq_unrecognised_of_decodeWord {w : Word} {e : DecodeReject} (h : decodeWord w = .error e) :
    e = .unrecognised w := by
  unfold decodeWord decodeGroup0 decodeGroup8 decodeGroupE decodeGroupF requireLowNibble0 at h
  split at h
  case h_1 | h_6 | h_9 | h_10 | h_15 | h_16 => split at h <;> cases h; rfl
  all_goals cases h

/-- A word that selects no row is refused: were it decoded, it would be the word of an instruction, which selects one.
-/
theorem decodeWord_of_selects_none {w : Word} (hnone : ∀ r ∈ opcodeMap, ¬ r.selects w) :
    decodeWord w = .error (.unrecognised w) := by
  cases h : decodeWord w with
  | error e => rw [eq_unrecognised_of_decodeWord h]
  | ok i =>
    obtain ⟨hword, -⟩ := Encoding.encode_of_decodeWord h
    obtain ⟨r, hr, hsel⟩ := exists_row_selects_encode i
    rw [hword] at hsel
    exact absurd hsel (hnone r (List.mem_of_getElem? hr))

end Sys2Proof.OpcodeMap

/-- Settles O4: a word that selects a row is the encoding of that row's operation, the word of every instruction selects
a row, and two rows that one word selects would agree on the bits that both masks keep. -/
theorem decodeIsTheSingleMatchOfTheOpcodeMap : Obligations.DecodeIsTheSingleMatchOfTheOpcodeMap := by
  unfold Obligations.DecodeIsTheSingleMatchOfTheOpcodeMap
  refine ⟨rfl, ?_, fun w => ⟨fun r hr hsel => ?_, fun hnone => ?_⟩⟩
  · refine Sys2Proof.OpcodeMap.pairwise_pattern_and_mask_ne.imp fun hne w ⟨hsel, hsel'⟩ => hne ?_
    exact Sys2Proof.OpcodeMap.pattern_and_mask_eq hsel hsel'
  · exact Sys2Proof.OpcodeMap.decodeWord_of_selects hr hsel
  · exact Sys2Proof.OpcodeMap.decodeWord_of_selects_none hnone

/-! One cycle, phase by phase (40_decode_dispatch.md R90): what a fatal condition leaves, as a number; what is decoded
from the two bytes at `pc`; and the word that the host places there. -/

namespace Sys2Proof.Dispatch

open Sys2Proof.Machine Sys2Proof.Claims

variable {s : State}

/-- The state a fatal condition leaves, with the word in `INFO` as a number (60_exceptions.md R197, R202). -/
theorem raise_eq_stopped (s : State) (c : Cause) (info : Word) : s.raise c info = stopped s c info.toNat := by
  rw [stopped, BitVec.ofNat_toNat, BitVec.setWidth_eq, State.raise]

/-- A stopped core has itself as its next state, so an induction on the number of cycles leaves it (R97). -/
theorem cycles_of_stopped (h : s.run = false) (n : Nat) : cycles n s = .next s := by
  induction n with
  | zero => rfl
  | succ n ih => rw [Cycle.cycles_succ n (step_of_stopped h), ih]

/-- Two bytes are decoded as the word they make, with nothing left over (30_encoding.md R71). -/
theorem decodeWord_of_decodeBytes {hi lo : Byte} {i : Instr} {rest : List Byte}
    (h : decodeBytes [hi, lo] = .ok (i, rest)) : decodeWord (wordOfBytes hi lo) = .ok i := by
  replace h : (decodeWord (wordOfBytes hi lo)).map (fun j => (j, [])) = .ok (i, rest) := h
  cases hd : decodeWord (wordOfBytes hi lo) with
  | error e => rw [hd] at h; cases h
  | ok j => rw [hd] at h; cases h; rfl

/-- An odd `pc`, or one above 0xFFE, cannot be fetched from (R91). -/
theorem not_fetchable_of_odd_or_gt {pc : Word} (h : pc.toNat % 2 = 1 ∨ pc.toNat > 0xFFE) : fetchable pc = false := by
  rw [← Bool.not_eq_true, fetchable_iff]
  omega

/-- A cycle of a running core at an even `pc` of at most 0xFFE whose two bytes decode (R91, R93). -/
theorem step_of_bytes {t : State} {i : Instr} (hrun : s.run = true) (hf : fetchable s.pc = true)
    (hd : decodeWord (wordOfBytes (s.mem.read s.pc.toNat) (s.mem.read (s.pc.toNat + 1))) = .ok i)
    (he : exec i s = .next t) : step s = .next t.finishCycle :=
  step_of_decoded hrun (fetch_of_fetchable s hf) hd he

/-! ### The word the host places (notes/assumptions/13.md) -/

theorem withFetchWord_eq (s : State) (w : Word) : s.withFetchWord 16 w.toNat = s.placeWord w := by
  rw [State.withFetchWord, tableWord_toNat]

/-- A word placed at a fetchable address changes the two bytes there. -/
theorem read_writeBytes_bytesOfWord (m : Memory) {pc : Word} (hf : fetchable pc = true) (w : Word) (a : Nat) :
    (m.writeBytes pc.toNat (bytesOfWord w)).read a =
      if a = pc.toNat then hiByte w else if a = pc.toNat + 1 then loByte w else m.read a := by
  obtain ⟨-, hle⟩ := (fetchable_iff pc).mp hf
  have hsize : Config.memSize = 4096 := rfl
  rw [bytesOfWord, Memory.writeBytes, Memory.writeBytes, Memory.writeBytes, Memory.read_write _ _ _ _ (by omega),
    Memory.read_write _ _ _ _ (by omega)]
  by_cases ha : a = pc.toNat
  · rw [if_neg (by omega), if_pos ha, if_pos ha]
  · simp only [if_neg ha]

theorem fetch_placeWord (s : State) (w : Word) : fetch (s.placeWord w) = some w := by
  have hf := readyToFetch_fetchable s
  rw [fetch_of_fetchable (s.placeWord w) hf]
  simp [State.placeWord, read_writeBytes_bytesOfWord _ hf]

/-- In a state that could fetch already, only memory changes. -/
theorem placeWord_of_fetchable (hrun : s.run = true) (hf : fetchable s.pc = true) (w : Word) :
    s.placeWord w = s.setMem (s.mem.writeBytes s.pc.toNat (bytesOfWord w)) := by
  rw [State.placeWord, readyToFetch_of_fetchable s hrun hf]

end Sys2Proof.Dispatch

/-- Settles O11: a listed word is refused by the decoder. -/
theorem unrecognisedWordRaisesDecodeError : Obligations.UnrecognisedWordRaisesDecodeError := by
  unfold Obligations.UnrecognisedWordRaisesDecodeError
  intro s w hrun hf hlisted
  obtain ⟨e, hd⟩ := (unrecognisedWordsAreThoseListed w).mpr hlisted
  rw [Sys2Proof.Machine.step_of_unrecognised hrun hf hd, Sys2Proof.Dispatch.raise_eq_stopped]

/-- Settles O8, by induction on the number of cycles. -/
theorem stoppedCoreDoesNothing : Obligations.StoppedCoreDoesNothing := by
  unfold Obligations.StoppedCoreDoesNothing
  intro s h
  exact ⟨Sys2Proof.Machine.step_of_stopped h, Sys2Proof.Dispatch.cycles_of_stopped h⟩

/-- Settles O9: the two bytes at `pc` are the word fetched there. -/
theorem stepRunsTheDecodedInstruction : Obligations.StepRunsTheDecodedInstruction := by
  unfold Obligations.StepRunsTheDecodedInstruction
  intro s t i hrun heven hle hd he
  exact Sys2Proof.Dispatch.step_of_bytes hrun ((Sys2Proof.Machine.fetchable_iff s.pc).mpr ⟨heven, hle⟩)
    (Sys2Proof.Dispatch.decodeWord_of_decodeBytes hd) he

/-- Settles O10, by whether `pc` can be fetched from. -/
theorem fetchReadsTheWordOrFaults : Obligations.FetchReadsTheWordOrFaults := by
  unfold Obligations.FetchReadsTheWordOrFaults
  intro s
  refine ⟨fun hpc => ?_, fun hrun hpc => ?_⟩
  · have hf := (Sys2Proof.Machine.fetchable_iff s.pc).mpr hpc
    exact ⟨_, Sys2Proof.Machine.fetch_of_fetchable s hf, Sys2Proof.wordOfBytes_toNat _ _⟩
  · have hf := Sys2Proof.Dispatch.not_fetchable_of_odd_or_gt hpc
    rw [Sys2Proof.Machine.step_of_no_fetch hrun (Sys2Proof.Machine.fetch_of_not_fetchable s hf),
      Sys2Proof.Dispatch.raise_eq_stopped]

/-- Settles O21: the two zero bytes are the word of `HALT`, and the state it stops in ends its cycle as it is. -/
theorem haltStopsAtAnyPc : Obligations.HaltStopsAtAnyPc := by
  unfold Obligations.HaltStopsAtAnyPc
  intro s
  refine ⟨rfl, rfl, fun hrun heven hle hhi hlo => ?_⟩
  have hf := (Sys2Proof.Machine.fetchable_iff s.pc).mpr ⟨heven, hle⟩
  exact Sys2Proof.Dispatch.step_of_bytes (i := .halt) hrun hf (by rw [hhi, hlo]; rfl) rfl

/-- Settles O51: the word goes to the two bytes that the next fetch reads. -/
theorem placedWordIsFetchedNext : Obligations.PlacedWordIsFetchedNext := by
  unfold Obligations.PlacedWordIsFetchedNext
  intro s w
  rw [Sys2Proof.Dispatch.withFetchWord_eq]
  refine ⟨Sys2Proof.Machine.readyToFetch_run s, Sys2Proof.Dispatch.fetch_placeWord s w, fun hrun heven hle => ?_⟩
  have hf := (Sys2Proof.Machine.fetchable_iff s.pc).mpr ⟨heven, hle⟩
  rw [Sys2Proof.Dispatch.placeWord_of_fetchable hrun hf]
  refine ⟨rfl, fun a ha ha' => ?_⟩
  rw [Sys2Proof.Machine.State.setMem_mem, Sys2Proof.Dispatch.read_writeBytes_bytesOfWord _ hf, if_neg ha, if_neg ha']

/-! The arithmetic and register instructions (41_arithmetic_register.md): the words they are decoded from, the registers
that the three ways of writing a result reach, and the values written, as numbers. -/

namespace Sys2Proof.Arithmetic

open Sys2Proof.Machine Sys2Proof.Claims

/-! ### Words (30_encoding.md R72, R75) -/

theorem numXK_eq_wordXK (op : Nibble) (x : Reg) (kk : Byte) : numXK op.toNat x kk.toNat = wordXK op x kk := by
  rw [numXK, ← wordXK_toNat, BitVec.ofNat_toNat, BitVec.setWidth_eq]

theorem numXY_eq_wordXYN (op n : Nibble) (x y : Reg) : numXY op.toNat x y n.toNat = wordXYN op x y n := by
  rw [numXY, ← wordXYN_toNat, BitVec.ofNat_toNat, BitVec.setWidth_eq]

theorem decodeWord_numXK {i : Instr} {op : Nibble} {x : Reg} {kk : Byte} (h : encode i = wordXK op x kk) :
    decodeWord (numXK op.toNat x kk.toNat) = .ok i := by
  rw [numXK_eq_wordXK, ← h, Encoding.decodeWord_encode]

theorem decodeWord_numXY {i : Instr} {op n : Nibble} {x y : Reg} (h : encode i = wordXYN op x y n) :
    decodeWord (numXY op.toNat x y n.toNat) = .ok i := by
  rw [numXY_eq_wordXYN, ← h, Encoding.decodeWord_encode]

/-! ### The registers written (R100, R109) -/

/-- The frame of any instruction that changes registers only and ends with the default advance. -/
theorem onlyRegisters_advance {s t : State} {named : Reg → Prop} (hdata : t = { s with v := t.v })
    (hregs : ∀ k, ¬ named k → t.reg k = s.reg k) : OnlyRegisters named s t.advance := by
  refine ⟨?_, hregs⟩
  rw [hdata]
  rfl

section

variable (s : State) (order : VfDestOrder) (x : Reg) (b : Byte) (rf : Byte × Byte)

theorem reg_setReg_of_ne {x k : Reg} (h : k ≠ x) : (s.setReg x b).reg k = s.reg k := by
  rw [State.reg_setReg, if_neg h]

theorem onlyRegisters_setReg : OnlyRegisters (· = x) s (s.setReg x b).advance :=
  onlyRegisters_advance rfl fun _ hk => reg_setReg_of_ne s b hk

theorem onlyRegisters_writeResultAndFlag :
    OnlyRegisters (fun k => k = x ∨ k = 15) s (s.writeResultAndFlag order x rf).advance := by
  refine onlyRegisters_advance (Cycle.writeResultAndFlag_eq_with_v s order x rf) fun k hk => ?_
  obtain ⟨hkx, (hkf : k ≠ vf)⟩ := not_or.mp hk
  unfold State.writeResultAndFlag
  split
  · cases order <;> exact reg_setReg_of_ne s _ hkf
  · rw [reg_setReg_of_ne _ _ hkf, reg_setReg_of_ne _ _ hkx]

theorem onlyRegisters_writeFlagThenResult :
    OnlyRegisters (fun k => k = x ∨ k = 15) s (s.writeFlagThenResult x rf).advance := by
  refine onlyRegisters_advance rfl fun k hk => ?_
  obtain ⟨hkx, (hkf : k ≠ vf)⟩ := not_or.mp hk
  rw [State.writeFlagThenResult, reg_setReg_of_ne _ _ hkx, reg_setReg_of_ne _ _ hkf]

theorem setReg_advance_v_self : (s.setReg x b).advance.v[x] = b :=
  State.reg_setReg_self s x b

/-- The result survives with every destination, VF included, because it is written last (R109, R111). -/
theorem writeFlagThenResult_advance_v_self : (s.writeFlagThenResult x rf).advance.v[x] = rf.1 :=
  State.reg_setReg_self _ x rf.1

theorem writeFlagThenResult_advance_v_vf (h : x ≠ 15) : (s.writeFlagThenResult x rf).advance.v[15] = rf.2 :=
  (reg_setReg_of_ne (s.setReg vf rf.2) rf.1 h.symm).trans (State.reg_setReg_self s vf rf.2)

/-- The two writes of R100 in the order that the configuration fixes, seen as numbers: with x = 15 both land on VF and
the later one stands. -/
theorem resultAndFlag_writeResultAndFlag {result flag : Nat} (hresult : rf.1.toNat = result)
    (hflag : rf.2.toNat = flag) :
    ResultAndFlag x result flag (s.writeResultAndFlag Config.vfDestOrder x rf).advance := by
  subst hresult hflag
  refine ⟨fun hx => ?_, fun hx => ?_⟩
  · have htwo : s.writeResultAndFlag Config.vfDestOrder x rf = (s.setReg x rf.1).setReg vf rf.2 := if_neg hx
    rw [htwo]
    exact ⟨congrArg BitVec.toNat ((reg_setReg_of_ne _ rf.2 hx).trans (State.reg_setReg_self s x rf.1)),
      congrArg BitVec.toNat (State.reg_setReg_self _ vf rf.2)⟩
  · subst hx
    cases Config.vfDestOrder with
    | flagLast => exact congrArg BitVec.toNat (State.reg_setReg_self s vf rf.2)
    | destLast => exact congrArg BitVec.toNat (State.reg_setReg_self s vf rf.1)

end

/-! ### The values written, as numbers (R107 to R111) -/

section

variable (a b v : Byte)

theorem addWithCarry_flag_toNat : (addWithCarry a b).2.toNat = if a.toNat + b.toNat > 255 then 1 else 0 := by
  rw [addWithCarry_flag, apply_ite BitVec.toNat]
  rfl

theorem subWithNotBorrow_result_toNat :
    (subWithNotBorrow a b).1.toNat = (((a.toNat : Int) - b.toNat) % 256).toNat :=
  BitVec.toNat_ofInt _

theorem subWithNotBorrow_flag_toNat : (subWithNotBorrow a b).2.toNat = if a.toNat > b.toNat then 1 else 0 := by
  rw [subWithNotBorrow_flag, apply_ite BitVec.toNat]
  rfl

theorem shiftRightOut_result_toNat : (shiftRightOut v).1.toNat = v.toNat / 2 := by
  rw [shiftRightOut, BitVec.toNat_ushiftRight, Nat.shiftRight_eq_div_pow, pow_one]

theorem shiftRightOut_flag_toNat : (shiftRightOut v).2.toNat = v.toNat % 2 :=
  (BitVec.toNat_and v 1).trans (Nat.and_one_is_mod _)

theorem shiftLeftOut_result_toNat : (shiftLeftOut v).1.toNat = v.toNat * 2 % 256 := by
  rw [shiftLeftOut, BitVec.toNat_shiftLeft, Nat.shiftLeft_eq, pow_one]

theorem shiftLeftOut_flag_toNat : (shiftLeftOut v).2.toNat = v.toNat / 128 := by
  rw [shiftLeftOut, BitVec.toNat_ushiftRight, Nat.shiftRight_eq_div_pow]

end

/-- Only `RND` takes the random byte from the state it runs in (R112). -/
theorem indifferent_rnd {i : Instr} (h : usesRnd i = false) (b : Byte) :
    Indifferent i (fun s => { s with rnd := b }) := by
  refine Parts.indifferent_of_overlay (fun s => ?_) (fun s t => ?_) <;> simp [Parts.overlay, h]

end Sys2Proof.Arithmetic

/-- Settles O17: both values are computed before either write, whichever comes last. -/
theorem addWritesSumAndCarry : Obligations.AddWritesSumAndCarry := by
  unfold Obligations.AddWritesSumAndCarry
  intro s x y
  exact ⟨Sys2Proof.Arithmetic.decodeWord_numXY (op := 8) (n := 4) rfl, _, rfl,
    Sys2Proof.Arithmetic.onlyRegisters_writeResultAndFlag s _ x _,
    Sys2Proof.Arithmetic.resultAndFlag_writeResultAndFlag s x _ (Sys2Proof.Machine.addWithCarry_result _ _)
      (Sys2Proof.Arithmetic.addWithCarry_flag_toNat _ _)⟩

/-- Settles O18: `SUBN` is the subtraction of `SUB` with the operands exchanged, written to the same register. -/
theorem subtractsWriteDifferenceAndNotBorrow : Obligations.SubtractsWriteDifferenceAndNotBorrow := by
  unfold Obligations.SubtractsWriteDifferenceAndNotBorrow
  intro s x y
  refine ⟨⟨Sys2Proof.Arithmetic.decodeWord_numXY (op := 8) (n := 5) rfl, _, rfl, ?_⟩,
    Sys2Proof.Arithmetic.decodeWord_numXY (op := 8) (n := 7) rfl, _, rfl, ?_⟩
  all_goals
    exact ⟨Sys2Proof.Arithmetic.onlyRegisters_writeResultAndFlag s _ x _,
      Sys2Proof.Arithmetic.resultAndFlag_writeResultAndFlag s x _
        (Sys2Proof.Arithmetic.subWithNotBorrow_result_toNat _ _)
        (Sys2Proof.Arithmetic.subWithNotBorrow_flag_toNat _ _)⟩

/-- Settles O19: the result is written after the flag, so it stands with every destination. -/
theorem shiftsComeFromVyAndWriteTheFlagFirst : Obligations.ShiftsComeFromVyAndWriteTheFlagFirst := by
  unfold Obligations.ShiftsComeFromVyAndWriteTheFlagFirst
  intro s x y
  refine ⟨⟨Sys2Proof.Arithmetic.decodeWord_numXY (op := 8) (n := 6) rfl, _, rfl,
      Sys2Proof.Arithmetic.onlyRegisters_writeFlagThenResult s x _, ?_, fun hx => ?_⟩,
    Sys2Proof.Arithmetic.decodeWord_numXY (op := 8) (n := 0xE) rfl, _, rfl,
      Sys2Proof.Arithmetic.onlyRegisters_writeFlagThenResult s x _, ?_, fun hx => ?_⟩
  · rw [Sys2Proof.Arithmetic.writeFlagThenResult_advance_v_self]
    exact Sys2Proof.Arithmetic.shiftRightOut_result_toNat _
  · rw [Sys2Proof.Arithmetic.writeFlagThenResult_advance_v_vf s x _ hx]
    exact Sys2Proof.Arithmetic.shiftRightOut_flag_toNat _
  · rw [Sys2Proof.Arithmetic.writeFlagThenResult_advance_v_self]
    exact Sys2Proof.Arithmetic.shiftLeftOut_result_toNat _
  · rw [Sys2Proof.Arithmetic.writeFlagThenResult_advance_v_vf s x _ hx]
    exact Sys2Proof.Arithmetic.shiftLeftOut_flag_toNat _

/-- Settles O20: the byte is masked bit by bit, and no other instruction takes it from the state. -/
theorem randomByteIsMaskedAndReachesNothingElse : Obligations.RandomByteIsMaskedAndReachesNothingElse := by
  unfold Obligations.RandomByteIsMaskedAndReachesNothingElse
  refine ⟨fun s x kk => ⟨Sys2Proof.Arithmetic.decodeWord_numXK (op := 0xC) rfl, _, rfl,
    Sys2Proof.Arithmetic.onlyRegisters_setReg s x _, fun b => ?_⟩,
    fun i b h => Sys2Proof.Arithmetic.indifferent_rnd h b⟩
  rw [Sys2Proof.Arithmetic.setReg_advance_v_self]
  exact BitVec.getLsbD_and

/-- Settles O15: one register is written, with the literal or with the sum narrowed to a byte. -/
theorem literalFormsWriteOneRegister : Obligations.LiteralFormsWriteOneRegister := by
  unfold Obligations.LiteralFormsWriteOneRegister
  intro s x kk
  refine ⟨⟨Sys2Proof.Arithmetic.decodeWord_numXK (op := 6) rfl, _, rfl,
      Sys2Proof.Arithmetic.setReg_advance_v_self s x kk, Sys2Proof.Arithmetic.onlyRegisters_setReg s x kk⟩,
    Sys2Proof.Arithmetic.decodeWord_numXK (op := 7) rfl, _, rfl, ?_, Sys2Proof.Arithmetic.onlyRegisters_setReg s x _⟩
  rw [Sys2Proof.Arithmetic.setReg_advance_v_self]
  exact BitVec.toNat_ofNat _ 8

/-- Settles O16: one register is written, with the value of the other or the two combined bit by bit. -/
theorem moveAndLogicWriteOneRegister : Obligations.MoveAndLogicWriteOneRegister := by
  unfold Obligations.MoveAndLogicWriteOneRegister
  intro s x y
  refine ⟨⟨Sys2Proof.Arithmetic.decodeWord_numXY (op := 8) (n := 0) rfl, _, rfl,
      Sys2Proof.Arithmetic.setReg_advance_v_self s x _, Sys2Proof.Arithmetic.onlyRegisters_setReg s x _⟩,
    ⟨Sys2Proof.Arithmetic.decodeWord_numXY (op := 8) (n := 1) rfl, _, rfl,
      Sys2Proof.Arithmetic.onlyRegisters_setReg s x _, fun b => ?_⟩,
    ⟨Sys2Proof.Arithmetic.decodeWord_numXY (op := 8) (n := 2) rfl, _, rfl,
      Sys2Proof.Arithmetic.onlyRegisters_setReg s x _, fun b => ?_⟩,
    Sys2Proof.Arithmetic.decodeWord_numXY (op := 8) (n := 3) rfl, _, rfl,
      Sys2Proof.Arithmetic.onlyRegisters_setReg s x _, fun b => ?_⟩
  all_goals rw [Sys2Proof.Arithmetic.setReg_advance_v_self]
  · exact BitVec.getLsbD_or
  · exact BitVec.getLsbD_and
  · exact BitVec.getLsbD_xor

/-! The control-flow instructions (42_control_flow.md): the words of the jumps and of `CALL`, a fetch from a bad target,
a return from a live frame, and the state a skip leaves. -/

namespace Sys2Proof.ControlFlow

open Sys2Proof.Machine Sys2Proof.Claims

variable {s : State}

/-! ### Words (30_encoding.md R72, R75) -/

theorem numA_eq_wordA (op : Nibble) (nnn : Lit12) : numA op.toNat nnn = wordA op nnn := by
  rw [numA, ← wordA_toNat, BitVec.ofNat_toNat, BitVec.setWidth_eq]

theorem decodeWord_numA {i : Instr} {op : Nibble} {nnn : Lit12} (h : encode i = wordA op nnn) :
    decodeWord (numA op.toNat nnn) = .ok i := by
  rw [numA_eq_wordA, ← h, Encoding.decodeWord_encode]

/-! ### Targets (R121, R128) -/

/-- The cycle after a jump of a running core to a target that cannot be fetched from. -/
theorem step_setPc_faults {target : Word} (hrun : s.run = true)
    (h : target.toNat % 2 = 1 ∨ target.toNat > 0xFFE) :
    step (s.setPc target) = .next (stopped (s.setPc target) .fetchFault target.toNat) :=
  (fetchReadsTheWordOrFaults (s.setPc target)).2 hrun h

/-! ### The stack (R122, R123) -/

/-- `RET` with k + 1 live frames, whose top slot is the one at index k. -/
theorem exec_ret_of_sp_eq_succ {k : Fin 16} (h : s.sp.val = k.val + 1) :
    exec .ret s = .next { s with sp := k.castSucc, pc := s.stack[k] + 2 } := by
  have htop : s.sp.val - 1 = k.val := by omega
  rw [exec_ret_of_pos s (by omega)]
  simp only [htop]
  rfl

/-! ### Skips (R124 to R127) -/

/-- A skip writes `pc` alone, by the condition that its Boolean test stands for. -/
theorem skipIf_eq_with_pc {c : Bool} {p : Prop} [Decidable p] (h : c = true ↔ p) :
    s.skipIf c = { s with pc := if p then s.pc + 4 else s.pc + 2 } := by
  rw [← Effects.skipIf_pc_of_iff h]
  rfl

end Sys2Proof.ControlFlow

/-- Settles O25: the slot that `RET` reads is the one that `CALL` wrote. -/
theorem returnAfterCallResumesAfterTheCall : Obligations.ReturnAfterCallResumesAfterTheCall := by
  unfold Obligations.ReturnAfterCallResumesAfterTheCall
  intro s nnn hsp
  refine ⟨_, Sys2Proof.Machine.exec_call_of_lt s nnn hsp, fun u husp hustack => ?_⟩
  have htop : u.stack[s.sp.val] = s.pc := by rw [hustack, Vector.getElem_set_self]
  rw [Sys2Proof.ControlFlow.exec_ret_of_sp_eq_succ (k := ⟨s.sp.val, hsp⟩) (congrArg Fin.val husp),
    Fin.getElem_fin, htop]
  rfl

/-- Settles O22: the sums are exact, and the next cycle is a fetch from the target. -/
theorem jumpsLoadTheTargetUnchecked : Obligations.JumpsLoadTheTargetUnchecked := by
  unfold Obligations.JumpsLoadTheTargetUnchecked
  intro s nnn
  have htarget := Sys2Proof.Machine.litAddr_toNat nnn
  refine ⟨⟨Sys2Proof.ControlFlow.decodeWord_numA (op := 1) rfl, _, rfl, rfl, htarget, fun hrun hbad => ?_⟩,
    Sys2Proof.ControlFlow.decodeWord_numA (op := 0xB) rfl, _, rfl, rfl,
    Sys2Proof.Effects.jpV0_target_toNat nnn _, Sys2Proof.ControlFlow.step_setPc_faults⟩
  rw [Sys2Proof.ControlFlow.step_setPc_faults hrun (by omega), htarget]

/-- Settles O23, by whether a slot is free. -/
theorem callPushesItsOwnAddress : Obligations.CallPushesItsOwnAddress := by
  unfold Obligations.CallPushesItsOwnAddress
  intro s nnn
  refine ⟨Sys2Proof.ControlFlow.decodeWord_numA (op := 2) rfl, fun hsp => ?_, fun hsp => ?_⟩
  · refine ⟨_, Sys2Proof.Machine.exec_call_of_lt s nnn hsp, rfl, rfl, Sys2Proof.Machine.litAddr_toNat nnn,
      fun k => ?_⟩
    simp only [Fin.getElem_fin, Vector.getElem_set, eq_comm (a := s.sp.val)]
  · rw [Sys2Proof.Machine.exec_call_of_full s nnn hsp, Sys2Proof.Dispatch.raise_eq_stopped]
    rfl

/-- Settles O24, by whether a frame is live. -/
theorem returnPopsTheCallSite : Obligations.ReturnPopsTheCallSite := by
  unfold Obligations.ReturnPopsTheCallSite
  intro s
  refine ⟨rfl, fun k hsp => Sys2Proof.ControlFlow.exec_ret_of_sp_eq_succ hsp, fun hsp => ?_⟩
  rw [Sys2Proof.Machine.exec_ret_of_empty s hsp, Sys2Proof.Dispatch.raise_eq_stopped]
  rfl

/-- Settles O26: the four are one skip with four tests, each a Boolean (in)equality of bytes. -/
theorem skipsAdvanceByFourOrTwo : Obligations.SkipsAdvanceByFourOrTwo := by
  unfold Obligations.SkipsAdvanceByFourOrTwo
  intro s x y kk
  exact
    ⟨⟨Sys2Proof.Arithmetic.decodeWord_numXK (op := 3) rfl,
      congrArg _ (Sys2Proof.ControlFlow.skipIf_eq_with_pc beq_iff_eq)⟩,
    ⟨Sys2Proof.Arithmetic.decodeWord_numXK (op := 4) rfl,
      congrArg _ (Sys2Proof.ControlFlow.skipIf_eq_with_pc bne_iff_ne)⟩,
    ⟨Sys2Proof.Arithmetic.decodeWord_numXY (op := 5) (n := 0) rfl,
      congrArg _ (Sys2Proof.ControlFlow.skipIf_eq_with_pc beq_iff_eq)⟩,
    Sys2Proof.Arithmetic.decodeWord_numXY (op := 9) (n := 0) rfl,
      congrArg _ (Sys2Proof.ControlFlow.skipIf_eq_with_pc bne_iff_ne)⟩

/-! Drawing (43_draw.md): the canvas that `DRW` works on, said of the claims' sprite bits, and what a draw that
completes leaves. -/

namespace Sys2Proof.Drawing

open Sys2Proof.Machine Sys2Proof.Claims

variable {s t u : State} {x y : Reg} {n : Nibble}

/-! ### The sprite's bits -/

/-- Row `V[y]` and column `V[x]`, from which a sprite is drawn, are on the screen (R142, R143). -/
def StartOnScreen (s : State) (x y : Reg) : Prop := s.v[x].toNat ≤ 63 ∧ s.v[y].toNat ≤ 31

/-- Some pixel that is on has a set sprite bit on it, so the draw turns it off (R145). -/
def Collides (s : State) (x y : Reg) (n : Nibble) : Prop :=
  ∃ (r : Fin 32) (c : Fin 64), spriteCovers s x y n r c = true ∧ s.fb[r][c] = true

theorem spriteCovers_of_startOnScreen (h : StartOnScreen s x y) (r : Fin 32) (c : Fin 64) :
    spriteCovers s x y n r c = spriteBit s.mem s.i.toNat s.v[y].toNat s.v[x].toNat n.toNat r c := by
  obtain ⟨hx, hy⟩ := h
  simp only [spriteCovers, spriteBit, hx, hy, r.isLt, c.isLt, true_and]

theorem spriteCovers_of_not_startOnScreen (h : ¬ StartOnScreen s x y) (r c : Nat) :
    spriteCovers s x y n r c = false := by
  rw [spriteCovers, decide_eq_false fun ⟨hx, hy, _⟩ => h ⟨hx, hy⟩, Bool.false_and]

/-- The bits depend on the coordinates, `I` and memory only. -/
theorem spriteCovers_congr (hx : t.v[x] = s.v[x]) (hy : t.v[y] = s.v[y]) (hi : t.i = s.i) (hmem : t.mem = s.mem)
    (r c : Nat) : spriteCovers t x y n r c = spriteCovers s x y n r c := by
  simp only [spriteCovers, hx, hy, hi, hmem]

/-! ### The canvas (R142 to R145) -/

/-- The canvas on which a draw leaves the new frame buffer and the collision. -/
def canvas (s : State) (x y : Reg) (n : Nibble) : Canvas :=
  drawSprite s.fb s.mem s.i.toNat s.v[y].toNat s.v[x].toNat n.toNat

theorem canvas_of_startOnScreen (h : StartOnScreen s x y) : canvas s x y n =
    Canvas.drawRows ⟨s.fb, false⟩ s.mem s.i.toNat s.v[y].toNat s.v[x].toNat n.toNat :=
  if_pos h

theorem canvas_of_not_startOnScreen (h : ¬ StartOnScreen s x y) : canvas s x y n = ⟨s.fb, false⟩ :=
  if_neg h

theorem pixel_eq_getElem (fb : FrameBuffer) (r : Fin 32) (c : Fin 64) : fb.pixel r c = fb[r][c] :=
  fb.pixel_of_lt r.isLt c.isLt

theorem canvas_fb (r : Fin 32) (c : Fin 64) :
    (canvas s x y n).fb[r][c] = (s.fb[r][c] ^^ spriteCovers s x y n r c) := by
  by_cases h : StartOnScreen s x y
  · rw [canvas_of_startOnScreen h, spriteCovers_of_startOnScreen h, ← pixel_eq_getElem, Canvas.drawRows_pixel,
      pixel_eq_getElem]
  · rw [canvas_of_not_startOnScreen h, spriteCovers_of_not_startOnScreen h, Bool.xor_false]

/-- A pixel with a sprite bit on it is on the screen. -/
theorem lt_of_spriteBit {m : Memory} {base y0 x0 k r c : Nat} (h : spriteBit m base y0 x0 k r c = true) :
    r < 32 ∧ c < 64 := by
  rw [spriteBit, Bool.and_eq_true, decide_eq_true_eq] at h
  obtain ⟨⟨hr, hc, -⟩, -⟩ := h
  exact ⟨hr, hc⟩

theorem canvas_collision : (canvas s x y n).collision = true ↔ Collides s x y n := by
  unfold Collides
  by_cases h : StartOnScreen s x y
  · simp only [canvas_of_startOnScreen h, Canvas.drawRows_collision, spriteCovers_of_startOnScreen h,
      ← pixel_eq_getElem, Bool.false_eq_true, false_or]
    constructor
    · rintro ⟨r, c, hbit, hon⟩
      obtain ⟨hr, hc⟩ := lt_of_spriteBit hbit
      exact ⟨⟨r, hr⟩, ⟨c, hc⟩, hbit, hon⟩
    · rintro ⟨r, c, hbit, hon⟩
      exact ⟨r, c, hbit, hon⟩
  · simp [canvas_of_not_startOnScreen h, spriteCovers_of_not_startOnScreen h]

/-! ### A draw that completes -/

/-- What a completed `DRW` leaves: the pixels XORed, the collision in VF, `pc` advanced, all else as it was. -/
structure Drawn (s : State) (x y : Reg) (n : Nibble) (t : State) : Prop where
  pixels : ∀ (r : Fin 32) (c : Fin 64), t.fb[r][c] = (s.fb[r][c] ^^ spriteCovers s x y n r c)
  flag_one : Collides s x y n → t.v[15] = 1
  flag_zero : ¬ Collides s x y n → t.v[15] = 0
  frame : t = { s with fb := t.fb, v := t.v, pc := s.pc + 2 }
  regs : ∀ k : Reg, k ≠ 15 → t.v[k] = s.v[k]

theorem drawn_of_canvas : Drawn s x y n
    ((s.setFb (canvas s x y n).fb).setReg vf (flagByte (canvas s x y n).collision)).advance where
  pixels := canvas_fb
  flag_one h := by
    rw [canvas_collision.mpr h]
    exact Arithmetic.setReg_advance_v_self _ vf 1
  flag_zero h := by
    rw [Bool.eq_false_iff.mpr (mt canvas_collision.mp h)]
    exact Arithmetic.setReg_advance_v_self _ vf 0
  frame := rfl
  regs _ hk := Arithmetic.reg_setReg_of_ne (s.setFb _) _ hk

theorem exec_drw_of_inRange (h : InRange s n.toNat) : ∃ t, exec (.drw x y n) s = .next t ∧ Drawn s x y n t :=
  ⟨_, exec_drw_of_none s x y n ((rangeFault_eq_none_iff _ _).mpr h), drawn_of_canvas⟩

theorem drawn_of_exec (hin : InRange s n.toNat) (h : exec (.drw x y n) s = .next t) : Drawn s x y n t := by
  obtain ⟨t', h', hd⟩ := exec_drw_of_inRange (x := x) (y := y) hin
  obtain rfl := Host.Outcome.next.inj (h.symm.trans h')
  exact hd

/-- The range check of R146, for a range of `n` rows that passes 0xFFF. -/
theorem exec_drw_of_not_inRange (h : ¬ InRange s n.toNat) : exec (.drw x y n) s = .next (memFaulted s) := by
  obtain ⟨hn, hpast⟩ := not_or.mp h
  rw [exec_drw_of_some s x y n (rangeFault_of_past _ _ hn (Nat.lt_of_not_le hpast))]
  rfl

/-! ### The same draw again (R147) -/

theorem Drawn.not_collides (h : Drawn s x y n t) (h0 : t.v[15] = 0) : ¬ Collides s x y n := fun hc =>
  absurd ((h.flag_one hc).symm.trans h0) (by decide)

/-- A second draw of the same sprite bits undoes the first. -/
theorem Drawn.fb_restored (h : Drawn s x y n t) (h' : Drawn t x y n u)
    (hbits : ∀ r c, spriteCovers t x y n r c = spriteCovers s x y n r c) : u.fb = s.fb := by
  refine FrameBuffer.ext_pixel fun r c hr hc => ?_
  have hpix := h'.pixels ⟨r, hr⟩ ⟨c, hc⟩
  rw [h.pixels, hbits, Bool.xor_assoc, Bool.xor_self, Bool.xor_false] at hpix
  rwa [FrameBuffer.pixel_of_lt _ hr hc, FrameBuffer.pixel_of_lt _ hr hc]

/-- A draw that changes no pixel has no set bit on the screen. -/
theorem Drawn.spriteCovers_of_fb_eq (h : Drawn s x y n t) (hfb : t.fb = s.fb) (r : Fin 32) (c : Fin 64) :
    spriteCovers s x y n r c = false := by
  have hpix := h.pixels r c
  rw [hfb] at hpix
  exact (Bool.xor_right_inj.mp ((Bool.xor_false _).trans hpix)).symm

/-- A draw that changes some pixel has a set bit on it. -/
theorem Drawn.exists_spriteCovers (h : Drawn s x y n t) (hfb : t.fb ≠ s.fb) :
    ∃ (r : Fin 32) (c : Fin 64), spriteCovers s x y n r c = true := by
  by_contra hnone
  simp only [not_exists, Bool.not_eq_true] at hnone
  refine hfb (FrameBuffer.ext_pixel fun r c hr hc => ?_)
  rw [FrameBuffer.pixel_of_lt _ hr hc, FrameBuffer.pixel_of_lt _ hr hc]
  exact (h.pixels ⟨r, hr⟩ ⟨c, hc⟩).trans (by rw [hnone ⟨r, hr⟩ ⟨c, hc⟩, Bool.xor_false]; rfl)

/-- Without a collision, a set bit on a pixel has turned it on, so the same bits collide with it. -/
theorem Drawn.collides_again (h : Drawn s x y n t) (hno : ¬ Collides s x y n) (hfb : t.fb ≠ s.fb)
    (hbits : ∀ r c, spriteCovers t x y n r c = spriteCovers s x y n r c) : Collides t x y n := by
  obtain ⟨r, c, hbit⟩ := h.exists_spriteCovers hfb
  have hoff : s.fb[r][c] = false := Bool.eq_false_iff.mpr fun hon => hno ⟨r, c, hbit, hon⟩
  exact ⟨r, c, (hbits r c).trans hbit, by rw [h.pixels, hbit, hoff, Bool.false_xor]⟩

theorem not_collides_of_not_spriteCovers (h : ∀ (r : Fin 32) (c : Fin 64), spriteCovers s x y n r c = false) :
    ¬ Collides s x y n := by
  rintro ⟨r, c, hbit, -⟩
  exact Bool.eq_false_iff.mp (h r c) hbit

end Sys2Proof.Drawing

/-- Settles O28: the canvas pixel by pixel, with its collision in VF, or the range check. -/
theorem drawXorsTheClippedSpriteAndReportsCollision : Obligations.DrawXorsTheClippedSpriteAndReportsCollision := by
  unfold Obligations.DrawXorsTheClippedSpriteAndReportsCollision
  intro s x y n
  refine ⟨Sys2Proof.Arithmetic.decodeWord_numXY (op := 0xD) rfl, fun hin => ?_,
    Sys2Proof.Drawing.exec_drw_of_not_inRange⟩
  obtain ⟨t, hexec, hdrawn⟩ := Sys2Proof.Drawing.exec_drw_of_inRange (x := x) (y := y) hin
  exact ⟨t, hexec, hdrawn.pixels, hdrawn.flag_one, hdrawn.flag_zero, hdrawn.frame, hdrawn.regs⟩

/-- Settles O29: both draws have the same sprite bits, and XOR with the same bit twice is the identity. -/
theorem identicalDrawRestoresEveryPixel : Obligations.IdenticalDrawRestoresEveryPixel := by
  unfold Obligations.IdenticalDrawRestoresEveryPixel
  intro s t x y n hin hexec hx hy
  have hfirst := Sys2Proof.Drawing.drawn_of_exec hin hexec
  have hi : t.i = s.i := (congrArg Sys2Proof.Machine.State.i hfirst.frame :)
  have hmem : t.mem = s.mem := (congrArg Sys2Proof.Machine.State.mem hfirst.frame :)
  have hbits := Sys2Proof.Drawing.spriteCovers_congr (n := n) hx hy hi hmem
  have hin' : Sys2Proof.Claims.InRange t n.toNat := by
    unfold Sys2Proof.Claims.InRange
    rwa [hi]
  obtain ⟨u, hexec', hsecond⟩ := Sys2Proof.Drawing.exec_drw_of_inRange (x := x) (y := y) hin'
  refine ⟨u, hexec', hfirst.fb_restored hsecond hbits, fun h0 hfb => ?_, fun hoff => ?_, fun hfb => ?_⟩
  · exact hsecond.flag_one (hfirst.collides_again (hfirst.not_collides h0) hfb hbits)
  · refine hfirst.flag_zero ?_
    rintro ⟨r, c, hbit, hon⟩
    exact Bool.eq_false_iff.mp (hoff r c hbit) hon
  · have hnone := hfirst.spriteCovers_of_fb_eq hfb
    exact ⟨hfirst.flag_zero (Sys2Proof.Drawing.not_collides_of_not_spriteCovers hnone),
      hsecond.flag_zero (Sys2Proof.Drawing.not_collides_of_not_spriteCovers fun r c => (hbits r c).trans (hnone r c))⟩

/-- Settles O27: every row of the cleared frame buffer is the same row of pixels that are off. -/
theorem clearScreenTurnsEveryPixelOff : Obligations.ClearScreenTurnsEveryPixelOff := by
  unfold Obligations.ClearScreenTurnsEveryPixelOff
  intro s
  refine ⟨rfl, _, rfl, fun r c => ?_, rfl⟩
  show (Vector.replicate 32 (Vector.replicate 64 false))[r][c] = false
  simp only [Fin.getElem_fin, Vector.getElem_replicate]

/-! The sound timer (44_timer_input_memory.md R163): two runs from states that differ in it at most, side by side. -/

namespace Sys2Proof.SoundTimer

open Sys2Proof.Machine Sys2Proof.Claims

variable {s s' : State}

theorem sameButSt_iff : SameButSt s s' ↔ ∃ b : Byte, s' = { s with st := b } := by
  constructor
  · intro h
    exact ⟨s'.st, h⟩
  · rintro ⟨b, rfl⟩
    rfl

/-- `LD ST,Vx` writes the same register value over both sound timers; no other instruction reaches them. -/
theorem exec_sameButSt (i : Instr) (h : SameButSt s s') :
    ∃ u u', exec i s = .next u ∧ exec i s' = .next u' ∧ SameButSt u u' := by
  obtain ⟨b, rfl⟩ := sameButSt_iff.mp h
  cases hi : usesSt i with
  | false =>
    obtain ⟨-, -, -, hindiff, -⟩ := eachPartOfTheStateIsReachedOnlyByItsInstructions i
    obtain ⟨u, hu, -⟩ := Cycle.exec_cases i s
    have hput := hindiff hi b s
    rw [hu] at hput
    exact ⟨u, _, hu, hput, rfl⟩
  | true =>
    cases i with
    | ldStVx x => exact ⟨_, _, rfl, rfl, rfl⟩
    | _ => cases hi

theorem simulation_sameButSt : TwoRuns.Simulation SameButSt where
  run h := (congrArg State.run h :)
  pc h := (congrArg State.pc h :)
  mem h := (congrArg State.mem h :)
  raise c info h := by
    obtain ⟨b, rfl⟩ := sameButSt_iff.mp h
    rfl
  exec i h := exec_sameButSt i h
  tick h := by
    obtain ⟨b, rfl⟩ := sameButSt_iff.mp h
    rfl

theorem decodeWord_ldStVx (x : Reg) : decodeWord (numXK 0xF x 0x18) = .ok (.ldStVx x) :=
  Arithmetic.decodeWord_numXK (op := 0xF) (kk := 0x18) rfl

end Sys2Proof.SoundTimer

/-- Settles O48, by induction on the number of cycles: to differ in the sound timer at most is a relation that every
phase of a cycle keeps. -/
theorem soundTimerInfluencesNothing : Obligations.SoundTimerInfluencesNothing := by
  unfold Obligations.SoundTimerInfluencesNothing
  refine ⟨fun s x => ⟨Sys2Proof.SoundTimer.decodeWord_ldStVx x, rfl⟩, fun n s s' h => ?_⟩
  exact Sys2Proof.SoundTimer.simulation_sameButSt.cycles n h

/-! Timers, keys, font, transfers and the address register (44_timer_input_memory.md): the least key down as a number,
the bytes inside and outside a block of writes, and the values that the instructions leave, as numbers. -/

namespace Sys2Proof.TimerInputMemory

open Sys2Proof.Machine Sys2Proof.Claims

variable {s : State}

/-! ### The key wait (R166) -/

/-- With a key down there is a least one, and every key of a lower number is up. -/
theorem leastKeyDown_of_keys_ne_zero (h : s.keys ≠ 0) : ∃ k : Fin 16, s.leastKeyDown = some k ∧
    s.keys.getLsbD k = true ∧ ∀ j < k.val, s.keys.getLsbD j = false := by
  cases hk : s.leastKeyDown with
  | none => exact absurd ((Effects.leastKeyDown_eq_none_iff_keys s).mp hk) h
  | some k =>
    obtain ⟨hdown, hlow⟩ := (s.leastKeyDown_eq_some_iff k).mp hk
    exact ⟨k, rfl, hdown, fun j hj => hlow ⟨j, hj.trans k.isLt⟩ hj⟩

theorem keyNumber_toNat (k : Fin 16) : (BitVec.ofNat 8 k.val).toNat = k.val := by
  rw [BitVec.toNat_ofNat]
  omega

theorem exec_ldVxK_of_keys_eq_zero (x : Reg) (h : s.keys = 0) : exec (.ldVxK x) s = .next s :=
  exec_ldVxK_of_none s x ((Effects.leastKeyDown_eq_none_iff_keys s).mpr h)

/-! ### Blocks of writes (20_memory.md R56, R60) -/

section

variable {m : Memory} {a : Nat} {vs : List Byte} (hin : a + vs.length ≤ Config.memSize)
include hin

theorem read_writeBytes_inside {k : Nat} (hk : k < vs.length) : (m.writeBytes a vs).read (a + k) = vs[k] := by
  rw [Memory.read_writeBytes _ _ _ _ hin, if_pos (Nat.le_add_right a k), Nat.add_sub_cancel_left,
    List.getElem?_eq_getElem hk]
  rfl

theorem read_writeBytes_outside {b : Nat} (hb : b < a ∨ a + vs.length ≤ b) :
    (m.writeBytes a vs).read b = m.read b := by
  rw [Memory.read_writeBytes _ _ _ _ hin]
  split
  · rw [List.getElem?_eq_none (by omega)]
    rfl
  · rfl

end

/-- The byte k of a store of three digits that stays inside memory (44_timer_input_memory.md R168). -/
theorem read_writeBytes_bcdDigits (m : Memory) {a : Nat} (b : Byte) (hin : a + 2 ≤ 0xFFF) (k : Fin 3) :
    (m.writeBytes a (bcdDigits b)).read (a + k) = (bcdDigits b)[k.val]'k.isLt :=
  read_writeBytes_inside (Nat.succ_le_succ hin) k.isLt

/-! ### The values left, as numbers (R167 to R172) -/

/-- A decimal digit of a byte is no greater than the byte, so it fits one. -/
theorem digit_toNat {d : Nat} {b : Byte} (h : d ≤ b.toNat) : (BitVec.ofNat 8 d).toNat = d := by
  have := b.isLt
  rw [BitVec.toNat_ofNat]
  omega

theorem glyphAddress_toNat (b : Byte) : (BitVec.ofNat 16 (5 * b.toNat)).toNat = 5 * b.toNat := by
  have := b.isLt
  rw [BitVec.toNat_ofNat]
  omega

theorem add_zext16_toNat (w : Word) (b : Byte) : (w + zext16 b).toNat = (w.toNat + b.toNat) % 65536 := by
  rw [BitVec.toNat_add, zext16_toNat]

end Sys2Proof.TimerInputMemory

/-- Settles O32, by whether a key is down: a cycle that waits is a completed one, so it ends with the timer
tick. -/
theorem keyWaitTakesTheLeastKeyOrWaits : Obligations.KeyWaitTakesTheLeastKeyOrWaits := by
  unfold Obligations.KeyWaitTakesTheLeastKeyOrWaits
  intro s x
  have hdecode := Sys2Proof.Arithmetic.decodeWord_numXK (i := .ldVxK x) (op := 0xF) (kk := 0x0A) rfl
  refine ⟨hdecode, Sys2Proof.TimerInputMemory.exec_ldVxK_of_keys_eq_zero x, fun hdown => ?_,
    fun hrun hfetch hup => ?_⟩
  · obtain ⟨k, hleast, hk, hlow⟩ := Sys2Proof.TimerInputMemory.leastKeyDown_of_keys_ne_zero hdown
    refine ⟨_, Sys2Proof.Machine.exec_ldVxK_of_some s x hleast, Sys2Proof.Arithmetic.onlyRegisters_setReg s x _, ?_⟩
    rw [Sys2Proof.Arithmetic.setReg_advance_v_self, Sys2Proof.TimerInputMemory.keyNumber_toNat]
    exact ⟨hk, hlow⟩
  · have hwait := Sys2Proof.TimerInputMemory.exec_ldVxK_of_keys_eq_zero x hup
    have hstep := Sys2Proof.Machine.step_of_decoded hrun hfetch hdecode hwait
    rw [Sys2Proof.Machine.finishCycle_of_running hrun] at hstep
    exact ⟨_, hstep, hrun, rfl, rfl, Sys2Proof.Machine.countDown_toNat _ _, Sys2Proof.Machine.countDown_toNat _ _⟩

/-- Settles O34, by the range check: the three digits are one block of writes. -/
theorem bcdStoresThreeDigits : Obligations.BcdStoresThreeDigits := by
  unfold Obligations.BcdStoresThreeDigits
  intro s x
  refine ⟨Sys2Proof.Arithmetic.decodeWord_numXK (op := 0xF) (kk := 0x33) rfl, fun hin => ?_, fun hpast => ?_⟩
  · have hfault := (Sys2Proof.Machine.rangeFault_eq_none_iff s.i 3).mpr (.inr hin)
    have hread := Sys2Proof.TimerInputMemory.read_writeBytes_bcdDigits s.mem s.v[x] hin
    refine ⟨_, Sys2Proof.Machine.exec_ldBVx_of_none s x hfault, ?_, ?_, ?_,
      fun a ha => Sys2Proof.TimerInputMemory.read_writeBytes_outside (Nat.succ_le_succ hin) ha, rfl⟩
    · exact (congrArg BitVec.toNat (hread 0)).trans
        (Sys2Proof.TimerInputMemory.digit_toNat (Nat.div_le_self _ _))
    · exact (congrArg BitVec.toNat (hread 1)).trans
        (Sys2Proof.TimerInputMemory.digit_toNat ((Nat.mod_le _ _).trans (Nat.div_le_self _ _)))
    · exact (congrArg BitVec.toNat (hread 2)).trans
        (Sys2Proof.TimerInputMemory.digit_toNat (Nat.mod_le _ _))
  · rw [Sys2Proof.Machine.exec_ldBVx_of_some s x
      (Sys2Proof.Machine.rangeFault_of_past s.i 3 (by decide) hpast)]
    rfl

/-- Settles O35, by the range check: the registers V0 to Vx are one block of writes. -/
theorem blockStoreWritesVZeroToVx : Obligations.BlockStoreWritesVZeroToVx := by
  unfold Obligations.BlockStoreWritesVZeroToVx
  intro s x
  refine ⟨Sys2Proof.Arithmetic.decodeWord_numXK (op := 0xF) (kk := 0x55) rfl, fun hin => ?_, fun hpast => ?_⟩
  · have hfault := (Sys2Proof.Machine.rangeFault_eq_none_iff s.i (x.val + 1)).mpr (.inr hin)
    have hlength := s.regsUpTo_length x
    have hblock : s.i.toNat + (s.regsUpTo x).length ≤ Sys2Proof.Config.memSize := by
      rw [hlength]
      exact Nat.succ_le_succ hin
    refine ⟨_, Sys2Proof.Machine.exec_ldMemVx_of_none s x hfault,
      fun k hk => Sys2Proof.MemoryUse.read_writeBytes_regsUpTo hk hin,
      fun a ha => Sys2Proof.TimerInputMemory.read_writeBytes_outside hblock (by omega),
      Sys2Proof.Machine.blockEnd_toNat s.i x, rfl⟩
  · rw [Sys2Proof.Machine.exec_ldMemVx_of_some s x
      (Sys2Proof.Machine.rangeFault_of_past s.i _ (Nat.succ_ne_zero _) hpast)]
    rfl

/-- Settles O36, by the range check: each register up to Vx is loaded from its byte, and each above is kept. -/
theorem blockLoadReadsVZeroToVx : Obligations.BlockLoadReadsVZeroToVx := by
  unfold Obligations.BlockLoadReadsVZeroToVx
  intro s x
  refine ⟨Sys2Proof.Arithmetic.decodeWord_numXK (op := 0xF) (kk := 0x65) rfl, fun hin => ?_, fun hpast => ?_⟩
  · have hfault := (Sys2Proof.Machine.rangeFault_eq_none_iff s.i (x.val + 1)).mpr (.inr hin)
    have hload := s.loadRegsUpTo_getElem x
    exact ⟨_, Sys2Proof.Machine.exec_ldVxMem_of_none s x hfault,
      fun k hk => (hload k).trans (if_pos hk), fun k hk => (hload k).trans (if_neg (Fin.not_le.mpr hk)),
      Sys2Proof.Machine.blockEnd_toNat s.i x, rfl⟩
  · rw [Sys2Proof.Machine.exec_ldVxMem_of_some s x
      (Sys2Proof.Machine.rangeFault_of_past s.i _ (Nat.succ_ne_zero _) hpast)]
    rfl

/-- Settles O30: each copy is one register, or one timer, set to the byte it was read as. -/
theorem timerCopiesMoveOneByte : Obligations.TimerCopiesMoveOneByte := by
  unfold Obligations.TimerCopiesMoveOneByte
  intro s x
  exact ⟨⟨Sys2Proof.Arithmetic.decodeWord_numXK (op := 0xF) (kk := 0x07) rfl, _, rfl,
      Sys2Proof.Arithmetic.setReg_advance_v_self s x _, Sys2Proof.Arithmetic.onlyRegisters_setReg s x _⟩,
    ⟨Sys2Proof.Arithmetic.decodeWord_numXK (op := 0xF) (kk := 0x15) rfl, rfl⟩,
    Sys2Proof.SoundTimer.decodeWord_ldStVx x, rfl⟩

/-- Settles O31, by the operand check: both are one skip, with the test of the key and with its negation. -/
theorem keySkipsTestTheKeyNumberedVx : Obligations.KeySkipsTestTheKeyNumberedVx := by
  unfold Obligations.KeySkipsTestTheKeyNumberedVx
  intro s x
  refine ⟨Sys2Proof.Arithmetic.decodeWord_numXK (op := 0xE) (kk := 0x9E) rfl,
    Sys2Proof.Arithmetic.decodeWord_numXK (op := 0xE) (kk := 0xA1) rfl, fun hle => ?_, fun hgt => ?_⟩
  · have hkey : s.v[x].toNat < 16 := Nat.lt_succ_of_le hle
    rw [Sys2Proof.Machine.exec_skp_of_le s x hkey, Sys2Proof.Machine.exec_sknp_of_le s x hkey]
    exact ⟨congrArg _ (Sys2Proof.ControlFlow.skipIf_eq_with_pc Iff.rfl),
      congrArg _ (Sys2Proof.ControlFlow.skipIf_eq_with_pc (Bool.not_eq_true' _).to_iff)⟩
  · have hkey : ¬ s.v[x].toNat < 16 := Nat.not_lt.mpr hgt
    exact ⟨Sys2Proof.Machine.exec_skp_of_gt s x hkey, Sys2Proof.Machine.exec_sknp_of_gt s x hkey⟩

/-- Settles O33, by the operand check. -/
theorem fontAddressIsFiveTimesTheDigit : Obligations.FontAddressIsFiveTimesTheDigit := by
  unfold Obligations.FontAddressIsFiveTimesTheDigit
  intro s x
  refine ⟨Sys2Proof.Arithmetic.decodeWord_numXK (op := 0xF) (kk := 0x29) rfl, fun hle => ?_, fun hgt => ?_⟩
  · exact ⟨_, Sys2Proof.Machine.exec_ldFVx_of_le s x (Nat.lt_succ_of_le hle),
      Sys2Proof.TimerInputMemory.glyphAddress_toNat _, rfl⟩
  · exact Sys2Proof.Machine.exec_ldFVx_of_gt s x (Nat.not_lt.mpr hgt)

/-- Settles O37: the literal is widened, and the sum is one of 16 bits. -/
theorem addressRegisterIsSetOrAddedTo : Obligations.AddressRegisterIsSetOrAddedTo := by
  unfold Obligations.AddressRegisterIsSetOrAddedTo
  intro s x nnn
  exact ⟨⟨Sys2Proof.ControlFlow.decodeWord_numA (op := 0xA) rfl, _, rfl, Sys2Proof.Machine.litAddr_toNat nnn, rfl⟩,
    Sys2Proof.Arithmetic.decodeWord_numXK (op := 0xF) (kk := 0x1E) rfl, _, rfl,
    Sys2Proof.TimerInputMemory.add_zext16_toNat _ _, rfl⟩

/-! Fatal conditions and the timer tick (60_exceptions.md): each instruction's check decides between stopping the machine
and completing with the latches as they were, and only a cycle that completes steps the timers. -/

namespace Sys2Proof.Exceptions

open Sys2Proof.Machine Sys2Proof.Claims

variable {s t : State} {o : Host.Outcome State Fault Refusal} {p : Prop} [Decidable p] {c : Cause} {info : Nat}

/-! ### The table of fatal conditions (R190) -/

/-- The outcome is a next state that has the latches of the state before (10_state.md R32). -/
def KeepsLatches (s : State) (o : Host.Outcome State Fault Refusal) : Prop :=
  ∃ t, o = .next t ∧ t.run = s.run ∧ t.cause = s.cause ∧ t.info = s.info

/-- The outcome is what a line of the table says: the machine stopped by the fatal condition, or completion where there
is none. -/
def AsTabled (s : State) (fatal : Option (Cause × Nat)) (o : Host.Outcome State Fault Refusal) : Prop :=
  (∀ c info, fatal = some (c, info) → o = .next (stopped s c info)) ∧ (fatal = none → KeepsLatches s o)

theorem keepsLatches_of_completes (h : Cycle.Completes s t) : KeepsLatches s (.next t) := ⟨t, rfl, h.latches⟩

theorem asTabled_some (h : o = .next (stopped s c info)) : AsTabled s (some (c, info)) o := by
  refine ⟨fun c' info' heq => ?_, fun hnone => (nomatch hnone)⟩
  cases heq
  exact h

theorem asTabled_none (h : KeepsLatches s o) : AsTabled s none o := ⟨fun _ _ hsome => (nomatch hsome), fun _ => h⟩

/-- A line with a condition. -/
theorem asTabled_ite (hraise : p → o = .next (stopped s c info)) (hdone : ¬ p → KeepsLatches s o) :
    AsTabled s (if p then some (c, info) else none) o := by
  split
  · next h => exact asTabled_some (hraise h)
  · next h => exact asTabled_none (hdone h)

/-- The lines of R195: the condition is that of the range check (20_memory.md R57). -/
theorem asTabled_memFault {len : Nat} (hp : p ↔ len ≠ 0 ∧ s.i.toNat + len - 1 > 0xFFF)
    (hraise : ∀ {a}, rangeFault s.i len = some a → o = .next (s.raise .memFault a))
    (hdone : rangeFault s.i len = none → KeepsLatches s o) :
    AsTabled s (if p then some (.memFault, max s.i.toNat 0x1000) else none) o := by
  refine asTabled_ite (fun h => ?_) (fun h => hdone ?_)
  · obtain ⟨hlen, hpast⟩ := hp.mp h
    exact hraise (rangeFault_of_past s.i len hlen hpast)
  · rw [hp] at h
    rw [rangeFault_eq_none_iff]
    omega

/-- Every instruction, by its check where it makes one. -/
theorem exec_asTabled (i : Instr) (s : State) : AsTabled s (fatalOf s i) (exec i s) := by
  cases i with
  | halt => exact asTabled_some rfl
  | cls | ldImm _ _ | addImm _ _ | ldReg _ _ | orReg _ _ | andReg _ _ | xorReg _ _ | shrReg _ _ | shlReg _ _
  | ldI _ | rnd _ _ | ldVxDt _ | ldDtVx _ | ldStVx _ | addIVx _ | jp _ | jpV0 _
  | seImm _ _ | sneImm _ _ | seReg _ _ | sneReg _ _ => exact asTabled_none ⟨_, rfl, rfl, rfl, rfl⟩
  | addReg _ _ | subReg _ _ | subnReg _ _ =>
    exact asTabled_none (keepsLatches_of_completes (Cycle.completes_writeResultAndFlag _ _ _ _))
  | ldVxK x =>
    cases h : s.leastKeyDown with
    | some k => exact asTabled_none ⟨_, exec_ldVxK_of_some s x h, rfl, rfl, rfl⟩
    | none => exact asTabled_none ⟨s, exec_ldVxK_of_none s x h, rfl, rfl, rfl⟩
  | call nnn =>
    exact asTabled_ite (exec_call_of_full s nnn) fun h => ⟨_, exec_call_of_lt s nnn (by omega), rfl, rfl, rfl⟩
  | ret => exact asTabled_ite (exec_ret_of_empty s) fun h => ⟨_, exec_ret_of_pos s (by omega), rfl, rfl, rfl⟩
  | skp x =>
    exact asTabled_ite (fun h => exec_skp_of_gt s x (by omega)) fun h =>
      ⟨_, exec_skp_of_le s x (by omega), rfl, rfl, rfl⟩
  | sknp x =>
    exact asTabled_ite (fun h => exec_sknp_of_gt s x (by omega)) fun h =>
      ⟨_, exec_sknp_of_le s x (by omega), rfl, rfl, rfl⟩
  | ldFVx x =>
    exact asTabled_ite (fun h => exec_ldFVx_of_gt s x (by omega)) fun h =>
      ⟨_, exec_ldFVx_of_le s x (by omega), rfl, rfl, rfl⟩
  | drw x y n =>
    exact asTabled_memFault (by omega) (exec_drw_of_some s x y n) fun h =>
      ⟨_, exec_drw_of_none s x y n h, rfl, rfl, rfl⟩
  | ldBVx x =>
    exact asTabled_memFault (by omega) (exec_ldBVx_of_some s x) fun h =>
      ⟨_, exec_ldBVx_of_none s x h, rfl, rfl, rfl⟩
  | ldMemVx x =>
    exact asTabled_memFault (by omega) (exec_ldMemVx_of_some s x) fun h =>
      ⟨_, exec_ldMemVx_of_none s x h, rfl, rfl, rfl⟩
  | ldVxMem x =>
    exact asTabled_memFault (by omega) (exec_ldVxMem_of_some s x) fun h =>
      ⟨_, exec_ldVxMem_of_none s x h, rfl, rfl, rfl⟩

/-! ### The timer tick (R203) -/

/-- A completed instruction leaves the cycle's tick input as it was. -/
theorem tick_of_completes (h : Cycle.Completes s t) : t.tick = s.tick := by
  cases h with
  | straight data _ _ => exact (congrArg State.tick data :)
  | jump _ | call _ _ | ret _ => rfl

/-- Execute leaves the cycle's tick input as it was, for raising does so too. -/
theorem tick_of_exec {i : Instr} (h : exec i s = .next t) : t.tick = s.tick := by
  obtain ⟨t', ht', hcases⟩ := Cycle.exec_cases i s
  obtain rfl := Host.Outcome.next.inj (h.symm.trans ht')
  rcases hcases with ⟨c, info, -, rfl⟩ | hdone
  · rfl
  · exact tick_of_completes hdone

/-- A cycle that leaves the machine stopped did not complete, so it did not tick. -/
theorem timers_of_cycleResult_of_stopped (h : Cycle.CycleResult s t) (hstop : t.run = false) :
    t.dt = s.dt ∧ t.st = s.st := by
  cases h with
  | stopped _ => exact ⟨rfl, rfl⟩
  | raised _ hraise =>
    obtain ⟨c, info, -, rfl⟩ := hraise
    exact ⟨rfl, rfl⟩
  | @completed u hrun _ hdone =>
    obtain ⟨hlatch, -, -⟩ := hdone.latches
    replace hstop : u.run = false := hstop
    rw [hlatch, hrun] at hstop
    cases hstop

end Sys2Proof.Exceptions

/-- Settles O13: each instruction is a line of the table. -/
theorem instructionsRaiseOnlyTheirCondition : Obligations.InstructionsRaiseOnlyTheirCondition := by
  unfold Obligations.InstructionsRaiseOnlyTheirCondition
  exact Sys2Proof.Exceptions.exec_asTabled

/-- Settles O14: the tick comes after execute, which does not write its input, and a cycle that ends stopped is none of
those that complete. -/
theorem timersStepOnceInACompletedCycle : Obligations.TimersStepOnceInACompletedCycle := by
  unfold Obligations.TimersStepOnceInACompletedCycle
  refine ⟨fun s u w i hrun hfetch hdecode hexec hu => ?_, fun s t hstep hstop => ?_⟩
  · have hstep := Sys2Proof.Machine.step_of_decoded hrun hfetch hdecode hexec
    rw [Sys2Proof.Machine.finishCycle_of_running hu] at hstep
    rw [← Sys2Proof.Exceptions.tick_of_exec hexec]
    exact ⟨_, hstep, Sys2Proof.Machine.countDown_toNat _ _, Sys2Proof.Machine.countDown_toNat _ _, rfl⟩
  · exact Sys2Proof.Exceptions.timers_of_cycleResult_of_stopped (Sys2Proof.Cycle.cycleResult_of_step hstep) hstop
